-- ==== Sys2Proof/Word.lean ====
section
/-! DEFINITION. The exact-width unsigned types of the engine (00_scope.md R4, 30_encoding.md R52). -/

namespace Sys2Proof

/-- A 32-bit unsigned value: the hash, a table word, a result (R4, R56). -/
abbrev Word := BitVec 32

/-- An input byte, a window slot's contents (R4, R14). -/
abbrev Byte := BitVec 8

/-- A 16-bit unsigned value: a window size or a slot index (R4, R11, R13). -/
abbrev Half := BitVec 16

/-- One 18-bit command word `cmd[17:0]` (R52). -/
abbrev CmdWord := BitVec 18

end Sys2Proof
end

