-- ==== Sys2Proof/Config.lean ====
section
/-! DEFINITION. What an implementation fixes: `HDR_BYTES`, `WCAP` and the contents of the table ROM
(00_scope.md R5 to R7). -/

namespace Sys2Proof

/-- The two numbers an implementation fixes. State carries them, and no step changes them, so that a
statement about every state is a statement about every value of them (DESIGN CHOICE, safe, log 3). -/
structure Config where
  /-- `HDR_BYTES`, a natural number `<= 2^32 - 65536` = 4294901760 (R6). -/
  hdrBytes : Fin 4294901761
  /-- `WCAP`, the number of byte slots of the window RAM, `0 <= WCAP <= 65535` (R7). -/
  wcap : Fin 65536
deriving DecidableEq, Repr

/-- `TABLE(0) .. TABLE(255)`: OPEN in the spec (R5, 92_eei_decisions.md D19); no body, so nothing can be
proved of its words (safe, log 5). -/
opaque Config.tableContents : Vector Word 256

/-- `HDR_BYTES`: OPEN in the spec (R6, D19); no body (safe, log 5). -/
opaque Config.headerBytes : Fin 4294901761

/-- The configuration the machine has at reset: the open header size, and `WCAP` at the default the spec
gives, 65535 (R7). -/
def Config.device : Config := { hdrBytes := Config.headerBytes, wcap := ⟨65535, by decide⟩ }

end Sys2Proof
end

