-- ==== Sys2Proof/Machine/State.lean ====
section
/-! DEFINITION. The state of one engine instance (10_state.md), the reasons a step stops, and the state
after reset (10_state.md R22, 70_reset_and_hazards.md R170, R171). -/

namespace Sys2Proof.Machine

/-- A byte memory: the slots that hold a value, each with its byte, addresses strictly rising
(`Memory.wf` in Machine/Ops.lean). A slot that is not listed holds no value (10_state.md R22, R23). -/
abbrev Memory := List Host.Cell

/-- The registers and the window RAM of an initialised engine (10_state.md R10 to R14). -/
structure Engine where
  /-- The accumulator (R10). -/
  hash : Word
  /-- The window size (R11). -/
  wsize : Half
  /-- The next slot index; between commands in `0 .. wsize` (R13, R18). -/
  pos : Half
  /-- The one flag (R12). -/
  filled : Bool
  /-- The window RAM: the slots written since the last `INIT`, with their bytes (R14, R23). -/
  win : Memory
deriving DecidableEq, Repr

/-- What a completed command returns (30_encoding.md R56). -/
inductive Result where
  /-- The 32-bit value of `SIZE`, `ADD` and `TBL`. -/
  | word (v : Word)
  /-- `INIT` returns no value: a completion only ("a model gives `INIT` a result of unit type"). -/
  | done
deriving DecidableEq, Repr

/-- What the host does at the port, as the model's step sees it (30_encoding.md R50; DESIGN CHOICE, safe,
log 1). -/
inductive HostEvent where
  /-- A command word, presented while no command of this engine is running. -/
  | command (w : CmdWord)
  /-- A command word, presented while another command of this engine has not completed: it cannot
  happen through the port of R51 (60_exceptions.md R153, R161). The unfinished command is not
  represented: a `command` event before this one is another, which has completed (DESIGN CHOICE,
  unsafe if read otherwise, log 19). -/
  | overlap (w : CmdWord)
  /-- Hardware reset (70_reset_and_hazards.md R170), between commands (`none`) or in place of the
  command it cuts short (`some w`; R180). -/
  | reset (cut : Option CmdWord)
deriving DecidableEq, Repr

/-- The machine's state. -/
structure State where
  /-- The engine's state, "an optional record: absent after reset, present after `INIT`"
  (10_state.md R17; safe, log 4). -/
  engine : Option Engine
  /-- The table ROM `T`, 256 words of 32 bits (10_state.md R15). -/
  rom : Vector Word 256
  /-- The configuration; no step changes it (00_scope.md R6, R7; DESIGN CHOICE, safe, log 3). -/
  cfg : Config
  /-- The MODEL's own field: what the host does next, oldest first (DESIGN CHOICE, safe, log 1). A host
  that goes on without end stands in Machine/Runs.lean (log 20). -/
  input : List HostEvent
  /-- The MODEL's own field: the results returned so far, oldest first (00_scope.md R8,
  70_reset_and_hazards.md R183; DESIGN CHOICE, safe, log 2). -/
  results : List Result
deriving DecidableEq, Repr

/-- Why the machine stops with a fault. The hardware raises no exception (60_exceptions.md R150); both
reasons mark a state no run reaches (DESIGN CHOICE, safe, log 7). -/
inductive Fault where
  /-- Raised by `ADD` when its slot index is not below `WCAP`: the spec says no such slot exists
  (20_memory.md R33, R40). Safe: the model stops where nothing is promised. -/
  | noSuchSlot
  /-- Raised by `ADD` when step 3 reads a slot that holds no value: "they must never be read"
  (20_memory.md R34). Safe: the model stops where nothing is promised. -/
  | unwrittenSlot
deriving DecidableEq, Repr

/-- Why a command has no meaning: the four reasons of 60_exceptions.md R153, and the host's own. -/
inductive Refusal where
  /-- The host's reason for a command without a meaning in this model: raised by no arm, since all four
  commands have theirs. Safe. -/
  | notModelled (mnemonic : String)
  /-- Raised by `ADD` on an uninitialised engine (42_add_byte.md R109). Safe: fewer runs have a
  meaning than the hardware executes (R152). -/
  | notInitialised
  /-- Raised by `INIT W` when `W > WCAP` (41_sizing_and_init.md R85). Safe, as above. -/
  | windowTooLarge
  /-- Raised by the step on a word that spells no command (30_encoding.md R57). Safe, as above. -/
  | reservedEncoding
  /-- Raised by the step on a command presented while another is unfinished (R161). Safe, as above. -/
  | overlap
deriving DecidableEq, Repr

/-- The machine right after reset: uninitialised, the ROM holding `TABLE` (10_state.md R22,
70_reset_and_hazards.md R170 to R172); nothing presented yet, nothing returned yet. -/
def State.reset : State :=
  { engine := none, rom := Config.tableContents, cfg := Config.device, input := [], results := [] }

end Sys2Proof.Machine
end

