-- ==== Sys2Proof/Machine/Ops.lean ====
section
/-! DEFINITION. The named operations: the rotate, the window RAM, the table ROM, returning a result, the
hardware reset, and taking the host's next event. The block has no exception to take and none to return
from (60_exceptions.md R150, R157, R158), so no operation stands here for them. -/

namespace Sys2Proof.Machine

/-- `rotl32(x, n)`: rotate left by `n mod 32`, bit `i` moving to bit `(i + n) mod 32` (00_scope.md R9;
the direction is PRESUMED, unsafe: 93_implementation_defined.md G1, log 9). -/
def rotl32 (x : Word) (n : Nat) : Word := x.rotateLeft n

/-- The memory's canonical form: addresses strictly rising. Every listed slot holds a value and an
unlisted one holds none, so no entry can equal what an unlisted address reads as. -/
abbrev Memory.wf (m : Memory) : Prop := (m.map Prod.fst).Pairwise (· < ·)

/-- The byte at an address; `none` where the slot holds no value. -/
def Memory.read : Memory → Nat → Option Byte
  | [], _ => none
  | (k, v) :: m, a => if a = k then some v else Memory.read m a

/-- The memory with one byte written, in canonical form if it was. -/
def Memory.write : Memory → Nat → Byte → Memory
  | [], a, v => [(a, v)]
  | (k, u) :: m, a, v =>
    if a < k then (a, v) :: (k, u) :: m
    else if a = k then (a, v) :: m
    else (k, u) :: Memory.write m a v

/-- `MemRead(WIN, a, 1)` in a window RAM of `cap` slots (20_memory.md R31, R33, R34). -/
def winRead (cap : Nat) (m : Memory) (a : Half) : Except Fault Byte :=
  if a.toNat < cap then
    match Memory.read m a.toNat with
    | some v => .ok v
    | none => .error .unwrittenSlot
  else .error .noSuchSlot

/-- `MemWrite(WIN, a, 1, v)` in a window RAM of `cap` slots (20_memory.md R32, R33). -/
def winWrite (cap : Nat) (m : Memory) (a : Half) (v : Byte) : Except Fault Memory :=
  if a.toNat < cap then .ok (Memory.write m a.toNat v) else .error .noSuchSlot

/-- `RomRead(b)`: the table word of a byte; total (20_memory.md R35). -/
def romRead (rom : Vector Word 256) (b : Byte) : Word := rom[b.toNat]'b.isLt

/-- A command completes and returns its result (30_encoding.md R56, 70_reset_and_hazards.md R183). -/
def State.respond (s : State) (r : Result) : State := { s with results := s.results ++ [r] }

/-- The engine's record replaced (an `INIT` makes it present, an `ADD` updates it; 10_state.md R17). -/
def State.setEngine (s : State) (e : Engine) : State := { s with engine := some e }

/-- The host's next event is taken: the events after it remain. -/
def State.setInput (s : State) (rest : List HostEvent) : State := { s with input := rest }

/-- Hardware reset: the engine becomes uninitialised, whatever it was doing; the ROM is unaffected and no
result is returned (70_reset_and_hazards.md R170, R172, R180). Results returned before stay the host's
(log 2). -/
def State.hardReset (s : State) : State := { s with engine := none }

/-- The same state with a command word put first in what the host presents (log 1). -/
def State.presentFirst (s : State) (w : CmdWord) : State := s.setInput (.command w :: s.input)

end Sys2Proof.Machine
end

