-- ==== Sys2Proof/Machine/Operands.lean ====
section
/-! DEFINITION. How commands use their operands: the size sum, the capacity check, the rotation amount,
and the working copies of `ADD`. -/

namespace Sys2Proof.Machine

/-- `zext_32(HDR_BYTES + W)`, an exact sum (41_sizing_and_init.md R80, 00_scope.md R6). -/
def storageBytes (cfg : Config) (w : Half) : Word := BitVec.ofNat 32 (cfg.hdrBytes.val + w.toNat)

/-- `W <= WCAP`: the window RAM has a slot for every index below `W` (41_sizing_and_init.md R85). -/
def windowFits (cfg : Config) (w : Half) : Bool := decide (w.toNat ≤ cfg.wcap.val)

/-- `W mod 32`, the rotation amount of the evicted byte's word (42_add_byte.md R103). -/
def evictAmount (w : Half) : Nat := w.toNat % 32

/-- The working copies `p`, `f` and `h` of `pos`, `filled` and `hash` inside one `ADD`
(42_add_byte.md section 2); they are not state. -/
structure Work where
  p : Half
  f : Bool
  h : Word
deriving DecidableEq, Repr

/-- The working copies as loaded when the command starts (42_add_byte.md section 2). -/
def loadWork (e : Engine) : Work := { p := e.pos, f := e.filled, h := e.hash }

end Sys2Proof.Machine
end

