-- ==== Sys2Proof/Machine/Flags.lean ====
section
/-! DEFINITION. The one flag, `filled`, and what depends on it: step 1 of `ADD` (42_add_byte.md R101), the
derived predicates of 10_state.md R19 and R20, and the slot index an `ADD` uses. -/

namespace Sys2Proof.Machine

/-- Step 1, the deferred wrap: `if p == W then p = 0; f = 1` (R101). -/
def stepWrap (w : Half) (x : Work) : Work := if x.p = w then { x with p := 0, f := true } else x

/-- `full`, a derived predicate: `(filled == 1) or (pos == wsize)` (10_state.md R20). The next `ADD`
evicts exactly when it holds (42_add_byte.md R107). -/
def Engine.full (e : Engine) : Bool := e.filled || decide (e.pos = e.wsize)

/-- The pending wrap: the stored state `pos == wsize` with `wsize >= 1` (10_state.md R19). -/
def Engine.pendingWrap (e : Engine) : Bool := decide (e.pos = e.wsize) && decide (e.wsize ≠ 0)

/-- The slot the next `ADD` reads (when it evicts) and writes: the working `p` after step 1
(20_memory.md R33, 42_add_byte.md R107). -/
def Engine.slot (e : Engine) : Half := (stepWrap e.wsize (loadWork e)).p

end Sys2Proof.Machine
end

