-- ==== Sys2Proof/Machine/AddByte.lean ====
section
/-! DEFINITION. The meaning of `ADD`, step by step (42_add_byte.md). -/

namespace Sys2Proof.Machine

/-- Step 2, ageing: rotate the hash left by one (R102). -/
def stepAge (x : Work) : Work := { x with h := rotl32 x.h 1 }

/-- Step 3, eviction: where `f` is set, XOR out the word of the byte that leaves the window, rotated left
by `W mod 32`. The slot still holds the old byte (R103; 70_reset_and_hazards.md R177). -/
def stepEvict (cap : Nat) (rom : Vector Word 256) (w : Half) (win : Memory) (x : Work) :
    Except Fault Work :=
  if x.f then
    match winRead cap win x.p with
    | .ok old => .ok { x with h := x.h ^^^ rotl32 (romRead rom old) (evictAmount w) }
    | .error f => .error f
  else .ok x

/-- Step 4, advance: `p = p + 1`; not wrapped here (R104). -/
def stepAdvance (x : Work) : Work := { x with p := x.p + 1 }

/-- Step 5, insertion of the new byte's word, unrotated (R105). -/
def stepInsert (rom : Vector Word 256) (b : Byte) (x : Work) : Work :=
  { x with h := x.h ^^^ romRead rom b }

/-- Step 6, write-back of the working copies and of the window (R106). `wsize` is never written
(41_sizing_and_init.md R86). -/
def writeBack (e : Engine) (win : Memory) (x : Work) : Engine :=
  { e with hash := x.h, pos := x.p, filled := x.f, win := win }

/-- The zero window: hash and `pos` stay 0, `filled` becomes 1, no access is made (R108; the spec's
decision D8; DESIGN CHOICE of the spec, unsafe, log 8). -/
def zeroWindow (e : Engine) : Engine := { e with hash := 0, pos := 0, filled := true }

/-- Steps 1 to 6 on an engine with `wsize >= 1`, in the order of R107: the window read of step 3 comes
before the window write of step 4 (20_memory.md R41). -/
def addSteps (cap : Nat) (rom : Vector Word 256) (e : Engine) (b : Byte) : Except Fault Engine :=
  match stepEvict cap rom e.wsize e.win (stepAge (stepWrap e.wsize (loadWork e))) with
  | .error f => .error f
  | .ok x =>
    match winWrite cap e.win x.p b with
    | .error f => .error f
    | .ok win => .ok (writeBack e win (stepInsert rom b (stepAdvance x)))

/-- `ADD b` on an initialised engine: the zero window, or the six steps (R107). -/
def addEngine (cap : Nat) (rom : Vector Word 256) (e : Engine) (b : Byte) : Except Fault Engine :=
  if e.wsize = 0 then .ok (zeroWindow e) else addSteps cap rom e b

/-- `ADD b`: feeds one byte and returns the new hash; refused on an uninitialised engine (R107, R109). -/
def execAdd (b : Byte) (s : State) : Host.Outcome State Fault Refusal :=
  match s.engine with
  | none => .refused .notInitialised
  | some e =>
    match addEngine s.cfg.wcap.val s.rom e b with
    | .ok e' => .next ((s.setEngine e').respond (.word e'.hash))
    | .error f => .fault f

end Sys2Proof.Machine
end

