-- ==== Sys2Proof/Machine/SizingInit.lean ====
section
/-! DEFINITION. The meanings of `SIZE` and `INIT` (41_sizing_and_init.md). -/

namespace Sys2Proof.Machine

/-- `SIZE W`: returns `HDR_BYTES + W` and changes nothing else; legal on an uninitialised engine too, and
`W` is not compared with `WCAP` (41_sizing_and_init.md R80). -/
def execSize (w : Half) (s : State) : Host.Outcome State Fault Refusal :=
  .next (s.respond (.word (storageBytes s.cfg w)))

/-- The fresh engine of `INIT W`: `hash`, `pos` and `filled` cleared, `wsize = W`, every slot holding no
value (41_sizing_and_init.md R82, 10_state.md R22, R23; safe, log 6). -/
def freshEngine (w : Half) : Engine := { hash := 0, wsize := w, pos := 0, filled := false, win := [] }

/-- `INIT W`: from any state, the fresh engine of window size `W`; refused where `W > WCAP`
(41_sizing_and_init.md R82 to R85). -/
def execInit (w : Half) (s : State) : Host.Outcome State Fault Refusal :=
  if windowFits s.cfg w then .next ((s.setEngine (freshEngine w)).respond .done)
  else .refused .windowTooLarge

end Sys2Proof.Machine
end

