-- ==== Sys2Proof/Machine/TableLookup.lean ====
section
/-! DEFINITION. The meaning of `TBL` (40_table_lookup.md). -/

namespace Sys2Proof.Machine

/-- `TBL b`: returns the table word of `b` and changes nothing else; legal on an uninitialised engine too
(40_table_lookup.md R70). -/
def execTbl (b : Byte) (s : State) : Host.Outcome State Fault Refusal :=
  .next (s.respond (.word (romRead s.rom b)))

end Sys2Proof.Machine
end

