-- ==== Sys2Proof/Syntax.lean ====
section
/-! DEFINITION. The four commands (30_encoding.md R53), what a command word can decode to (R63), and the
written form of a command (R60, R61). -/

namespace Sys2Proof

/-- The four commands, one constructor per row of the opcode table (R53). The operands have the exact
widths of R54 and R55, so every term is a legal command. -/
inductive Instr where
  /-- `SIZE W`: `requiredStorage` (R80). -/
  | size (w : Half)
  /-- `INIT W`: `initialize` (R82). -/
  | init (w : Half)
  /-- `ADD b`: `addByte` (R107). -/
  | add (b : Byte)
  /-- `TBL b`: the table lookup `contribution` (R70). -/
  | tbl (b : Byte)
deriving DecidableEq, Repr

/-- What a command word spells: a command, or nothing (R57, R63). -/
inductive Decoded where
  | command (i : Instr)
  | reserved
deriving DecidableEq, Repr

/-- A written operand: a number (decimal or with `0x`, the radix is spelling only), or one character in
single quotes (R60). -/
inductive Operand where
  | num (n : Nat)
  | chr (c : Char)
deriving DecidableEq, Repr

/-- A written line: a mnemonic with its operand, or the one pseudo-command `FEED` in its two forms
(R60, R61; its spelling in characters is read in Machine/Written.lean). -/
inductive Line where
  | size (o : Operand)
  | init (o : Operand)
  | add (o : Operand)
  | tbl (o : Operand)
  | feedBytes (os : List Operand)
  | feedText (cs : List Char)
deriving DecidableEq, Repr

end Sys2Proof
end

