-- ==== Sys2Proof/Machine/Dispatch.lean ====
section
/-! DEFINITION. One arm per command, each a call of its meaning. -/

namespace Sys2Proof.Machine

def exec (i : Instr) (s : State) : Host.Outcome State Fault Refusal :=
  match i with
  | .size w => Sys2Proof.Machine.execSize w s
  | .init w => Sys2Proof.Machine.execInit w s
  | .add b => Sys2Proof.Machine.execAdd b s
  | .tbl b => Sys2Proof.Machine.execTbl b s

end Sys2Proof.Machine
end

