-- ==== Sys2Proof/WellFormed.lean ====
section
/-! DEFINITION. Which written lines spell a command (30_encoding.md R60, R61). A term of `Instr` needs no
check: its operands' types hold exactly the values R54 and R55 allow. -/

namespace Sys2Proof

/-- A window size operand `w` of `SIZE` and `INIT`: a number in 0..65535; a quoted character is a form of
`ADD` and `TBL` only (R60). -/
def Operand.wfHalf : Operand → Bool
  | .num n => decide (n < 65536)
  | .chr _ => false

/-- A byte operand `b` of `ADD` and `TBL`: a number in 0..255, or an ASCII character (R60). -/
def Operand.wfByte : Operand → Bool
  | .num n => decide (n < 256)
  | .chr c => decide (c.toNat < 128)

/-- The line spells a command, or for `FEED` a sequence of them (R60, R61). An empty `FEED` has no last
`ADD` to give its result, so it spells nothing (DESIGN CHOICE, safe, log 15). -/
def Line.wf : Line → Bool
  | .size o => o.wfHalf
  | .init o => o.wfHalf
  | .add o => o.wfByte
  | .tbl o => o.wfByte
  | .feedBytes os => !os.isEmpty && os.all Operand.wfByte
  | .feedText cs => !cs.isEmpty && cs.all fun c => decide (c.toNat < 128)

end Sys2Proof
end

