-- ==== Sys2Proof/Decode.lean ====
section
/-! DEFINITION. The decoder of command words, the encoder, and the meaning of a written line as commands
(30_encoding.md R52 to R63). -/

namespace Sys2Proof

/-- The field `op = cmd[17:16]` (R52). -/
def opField (w : CmdWord) : BitVec 2 := w.extractLsb' 16 2

/-- The field `arg = cmd[15:0]` (R52); the operand `W` of `SIZE` and `INIT` (R54). -/
def argField (w : CmdWord) : Half := w.extractLsb' 0 16

/-- The operand `b = arg[7:0]` of `ADD` and `TBL` (R55). -/
def byteField (w : CmdWord) : Byte := w.extractLsb' 0 8

/-- `arg[15:8]`, which must be zero in `ADD` and `TBL` (R55, R57). -/
def highField (w : CmdWord) : Byte := w.extractLsb' 8 8

/-- A word whose operand is a byte: reserved where `arg[15:8]` is not zero (R55, R57). -/
def decodeByte (c : Byte → Instr) (w : CmdWord) : Decoded :=
  if highField w = 0 then .command (c (byteField w)) else .reserved

/-- The decoder: total on 18-bit words, and a function of the word alone (R53, R57, R63). -/
def decode (w : CmdWord) : Decoded :=
  match (opField w).toNat with
  | 0 => .command (.size (argField w))
  | 1 => .command (.init (argField w))
  | 2 => decodeByte .add w
  | _ => decodeByte .tbl w

/-- The word with the given fields: the concatenation `{op, arg}` (R52). -/
def cmdWord (op : BitVec 2) (arg : Half) : CmdWord := op ++ arg

/-- The encoder, from the opcode map of R53. -/
def encode : Instr → CmdWord
  | .size w => cmdWord 0b00 w
  | .init w => cmdWord 0b01 w
  | .add b => cmdWord 0b10 (b.zeroExtend 16)
  | .tbl b => cmdWord 0b11 (b.zeroExtend 16)

/-- The number of a written operand: itself, or the character's code (R60). -/
def Operand.value : Operand → Nat
  | .num n => n
  | .chr c => c.toNat

/-- The commands a well-formed line stands for, `FEED` expanded to its `ADD`s in order (R60, R61). -/
def Line.commands : Line → List Instr
  | .size o => [.size (BitVec.ofNat 16 o.value)]
  | .init o => [.init (BitVec.ofNat 16 o.value)]
  | .add o => [.add (BitVec.ofNat 8 o.value)]
  | .tbl o => [.tbl (BitVec.ofNat 8 o.value)]
  | .feedBytes os => os.map fun o => .add (BitVec.ofNat 8 o.value)
  | .feedText cs => cs.map fun c => .add (BitVec.ofNat 8 c.toNat)

/-- Assembling a line: its commands, or nothing where the line spells no command (R60). -/
def assemble (l : Line) : Option (List Instr) := if l.wf then some l.commands else none

/-- The command word of a number whose bit 0 is `cmd[0]`, as spec/opcode_table.json numbers the bits. The
port has 18 wires: a number that needs more is no command word (DESIGN CHOICE, safe, log 16). -/
def tableCmdWord (nbits w : Nat) : Option CmdWord :=
  let v := w % 2 ^ nbits
  if v < 2 ^ 18 then some (BitVec.ofNat 18 v) else none

/-- What the decoder reads from an instruction whose bits are `w`; `none` where it spells no command. -/
def decodeTableWord (nbits w : Nat) : Option Instr :=
  match tableCmdWord nbits w with
  | none => none
  | some c =>
    match decode c with
    | .command i => some i
    | .reserved => none

end Sys2Proof
end

