-- ==== Sys2Proof/Machine/Port.lean ====
section
/-! DEFINITION. The command port at command level (30_encoding.md section 2): what the engine does with the
host's next event, given how it runs a command. -/

namespace Sys2Proof.Machine

/-- The host's next event is served. With nothing presented the engine idles, holding its state
(60_exceptions.md R162, 70_reset_and_hazards.md R183). A reset makes it uninitialised (R170, R180). An
overlapping command is refused before anything is asked of its word; then a reserved word is refused; then
the command runs (60_exceptions.md R156). What becomes of the unfinished command that another overlaps the
spec leaves open: the model does not represent that command, and the run ends at the refusal (DESIGN
CHOICE, unsafe if a `command` event before it is read as the unfinished one, log 19). -/
def serveHost (run : Instr → State → Host.Outcome State Fault Refusal) (s : State) :
    Host.Outcome State Fault Refusal :=
  match s.input with
  | [] => .next s
  | .reset _ :: rest => .next (s.setInput rest).hardReset
  | .overlap _ :: _ => .refused .overlap
  | .command w :: rest =>
    match decode w with
    | .reserved => .refused .reservedEncoding
    | .command i => run i (s.setInput rest)

/-- `s` with the command word of the number `w` presented first. A number that is no command word changes
nothing (log 16, log 17). -/
def State.presentNumber (s : State) (nbits w : Nat) : State :=
  match tableCmdWord nbits w with
  | some c => s.presentFirst c
  | none => s

end Sys2Proof.Machine
end

