-- ==== Sys2Proof/Machine/Step.lean ====
section
/-! DEFINITION. One step: one command of the host, executed whole (00_scope.md R8, 30_encoding.md R50), or
a reset, or nothing. -/

namespace Sys2Proof.Machine

/-- One step: the host's next event is served, and a command it presents runs by `exec`. -/
def step (s : State) : Host.Outcome State Fault Refusal := serveHost exec s

/-- `s` with the instruction of bits `w` put where the step takes its next command: first in what the
host presents (log 17). -/
def State.withFetchWord (s : State) (nbits w : Nat) : State := s.presentNumber nbits w

end Sys2Proof.Machine
end

