-- ==== Sys2Proof/Machine/Runs.lean ====
section
/-! DEFINITION. Runs, finite or endless: "a finite or infinite sequence of commands presented by the host
to one engine" (00_scope.md R8). The list in the state ends, so what a host does without end stands here,
outside the state, which stays plain data (DESIGN CHOICE, safe, log 20). -/

namespace Sys2Proof.Machine

/-- All a host ever does: at each moment one event, or nothing. One that does nothing from some moment on
is a finite sequence. -/
abbrev HostBehaviour := Nat → Option HostEvent

/-- The same state with what the host does now put last in what it presents. -/
def State.present (s : State) (o : Option HostEvent) : State := s.setInput (s.input ++ o.toList)

/-- The first `n` steps under a host, which acts anew before each step, stopping at the first fault or
refusal. -/
def runUnder (h : HostBehaviour) : Nat → State → Host.Outcome State Fault Refusal
  | 0, s => .next s
  | n + 1, s =>
    match runUnder h n s with
    | .next t => step (t.present (h n))
    | .fault f => .fault f
    | .refused r => .refused r

/-- `states` is an endless run under the host: each of its states comes from the one before by a step that
takes what the host does at that moment. What the run shows is the results of its states (R8). -/
def IsRun (h : HostBehaviour) (states : Nat → State) : Prop :=
  ∀ n, step ((states n).present (h n)) = .next (states (n + 1))

/-- The run starts from the reset state (R8, 70_reset_and_hazards.md R170). -/
def IsRunFromReset (h : HostBehaviour) (states : Nat → State) : Prop :=
  states 0 = State.reset ∧ IsRun h states

/-- The host that presents these commands one after the other, without end. -/
def presentForever (commands : Nat → Instr) : HostBehaviour :=
  fun n => some (.command (encode (commands n)))

/-- The commands of an endless hash stream: `INIT W`, then an `ADD` for each byte. -/
def streamForever (w : Half) (bytes : Nat → Byte) : Nat → Instr
  | 0 => .init w
  | n + 1 => .add (bytes n)

end Sys2Proof.Machine
end

