-- ==== Sys2Proof/Machine/Instances.lean ====
section
/-! DEFINITION. Several engine instances side by side: "a model of `n` instances is the product of `n`
models of one" (60_exceptions.md R160, 10_state.md R27). There is one table, which all read; everything
else each instance owns. A run is one engine's (00_scope.md R8), so where one instance stops the others go
on. The form of the product is a DESIGN CHOICE, safe, log 14. -/

namespace Sys2Proof.Machine

/-- What one instance owns: all of its state but the shared table (10_state.md R27). -/
structure Own where
  engine : Option Engine
  cfg : Config
  input : List HostEvent
  results : List Result
deriving DecidableEq, Repr

/-- One instance of a system: running, or stopped for the reason its own run stopped for. -/
inductive Member where
  | running (o : Own)
  | faulted (f : Fault)
  | refused (r : Refusal)
deriving DecidableEq, Repr

/-- The table, held once, and the instances, numbered by the host only: commands see no identifier
(R160). -/
structure System where
  rom : Vector Word 256
  members : List Member
deriving DecidableEq, Repr

/-- The state of an instance: what it owns, reading the shared table. -/
def Own.withRom (o : Own) (rom : Vector Word 256) : State :=
  { engine := o.engine, rom := rom, cfg := o.cfg, input := o.input, results := o.results }

/-- What an instance in this state owns. -/
def State.own (s : State) : Own :=
  { engine := s.engine, cfg := s.cfg, input := s.input, results := s.results }

/-- An instance after one of its own steps had this outcome. The table a next state reads is the shared
one, which no step writes (20_memory.md R36). -/
def memberAfter : Host.Outcome State Fault Refusal → Member
  | .next t => .running t.own
  | .fault f => .faulted f
  | .refused r => .refused r

/-- One step of an instance; one that has stopped stays stopped (60_exceptions.md R152). -/
def Member.advance (rom : Vector Word 256) : Member → Member
  | .running o => memberAfter (step (o.withRom rom))
  | .faulted f => .faulted f
  | .refused r => .refused r

/-- Instance `k` makes one step, whatever becomes of it; the others hold what they own, and the table
stays. Where there is no instance `k` nothing happens. -/
def System.stepAt (k : Nat) (sys : System) : System :=
  { sys with members := sys.members.modify k (Member.advance sys.rom) }

/-- A run of the system under a schedule that says which instance moves at each step: any interleaving
(R160). -/
def System.run : List Nat → System → System
  | [], sys => sys
  | k :: ks, sys => System.run ks (System.stepAt k sys)

/-- The host's act at one moment reaches an instance, which then makes one step; a stopped one stays
stopped. -/
def Member.serve (rom : Vector Word 256) (o : Option HostEvent) : Member → Member
  | .running own => memberAfter (step ((own.withRom rom).present o))
  | .faulted f => .faulted f
  | .refused r => .refused r

/-- All the hosts of a system ever do, in any interleaving (R160): at each moment, which instance steps,
and what its host does then. -/
abbrev Interleaving := Nat → Nat × Option HostEvent

/-- The first `n` moments of an interleaving, which has no end (00_scope.md R8; log 20). -/
def System.runUnder (h : Interleaving) : Nat → System → System
  | 0, sys => sys
  | n + 1, sys =>
    let now := System.runUnder h n sys
    { now with members := now.members.modify (h n).1 (Member.serve now.rom (h n).2) }

/-- What the host of instance `j` does in an interleaving: nothing while another instance steps. -/
def Interleaving.hostOf (h : Interleaving) (j : Nat) : HostBehaviour :=
  fun n => if (h n).1 = j then (h n).2 else none

end Sys2Proof.Machine
end

