-- ==== Sys2Proof/Machine/Feed.lean ====
section
/-! DEFINITION. Finite sequences of commands given to one engine (00_scope.md R8; endless ones are in
Machine/Runs.lean), and the pseudo-command `FEED` (30_encoding.md R61). -/

namespace Sys2Proof.Machine

/-- The commands executed one after the other, each whole before the next (30_encoding.md R50), stopping
at the first fault or refusal. -/
def runCommands : List Instr → State → Host.Outcome State Fault Refusal
  | [], s => .next s
  | i :: is, s =>
    match exec i s with
    | .next t => runCommands is t
    | .fault f => .fault f
    | .refused r => .refused r

/-- `FEED b1, ..., bn` as commands: `ADD b1`, ..., `ADD bn` (30_encoding.md R61). -/
def feedCommands (bs : List Byte) : List Instr := bs.map .add

/-- One whole hash stream: `INIT W`, then an `ADD` for each byte (45_properties.md, its standing
assumption). -/
def runStream (w : Half) (bs : List Byte) (s : State) : Host.Outcome State Fault Refusal :=
  runCommands (.init w :: feedCommands bs) s

end Sys2Proof.Machine
end

