-- ==== Sys2Proof/Safety.lean ====
section
/-! DEFINITION. The terms claims use: the BuzHash of a byte string (45_properties.md R131), the window an
engine's state stands for (10_state.md R21), and the invariant of the stored state (10_state.md
section 2). -/

namespace Sys2Proof.Machine

/-- `BH(c_1 .. c_n)`: the XOR over `i` of `rotl32(T[c_i], n - i)`, 0 for the empty string
(45_properties.md R131). -/
def buzHash (rom : Vector Word 256) : List Byte → Word
  | [] => 0
  | c :: cs => rotl32 (romRead rom c) cs.length ^^^ buzHash rom cs

/-- The last `min(k, n)` of `k` bytes. -/
def lastBytes (n : Nat) (bs : List Byte) : List Byte := bs.drop (bs.length - n)

/-- The bytes the window holds, oldest first: in circular order from the next slot to be written, the
slot `pos` (10_state.md R21; in a pending wrap that is slot 0). -/
def windowBytes (e : Engine) : List Byte :=
  (e.win.map Prod.snd).drop e.pos.toNat ++ (e.win.map Prod.snd).take e.pos.toNat

/-- How many slots have been written since `INIT`: all of the window once `filled` is set, else the
first `pos` (10_state.md R18, R20, R21). -/
def slotsWritten (e : Engine) : Nat := if e.filled then e.wsize.toNat else e.pos.toNat

/-- The invariant of an initialised engine between commands (10_state.md R18, R21, R24; 20_memory.md R33,
R34). -/
structure Engine.Inv (cap : Nat) (rom : Vector Word 256) (e : Engine) : Prop where
  /-- The window fits the RAM (R33). -/
  fits : e.wsize.toNat ≤ cap
  /-- `0 <= pos <= wsize` (R18). -/
  posLe : e.pos.toNat ≤ e.wsize.toNat
  /-- Once bytes have been evicted, `pos` is never 0 again in a window of at least one slot (R18). -/
  posPos : e.filled = true → e.wsize ≠ 0 → e.pos ≠ 0
  /-- The slots that hold a value are exactly the first `slotsWritten`, in order (R21, R34). -/
  written : e.win.map Prod.fst = List.range (slotsWritten e)
  /-- The hash is the BuzHash of the window (R24). -/
  hashed : e.hash = buzHash rom (windowBytes e)

/-- The invariant of the machine: its engine, where there is one, meets `Engine.Inv`. -/
def State.Inv (s : State) : Prop := ∀ e, s.engine = some e → e.Inv s.cfg.wcap.val s.rom

end Sys2Proof.Machine
end

