-- ==== Sys2Proof/Certificates/Slice0/Obligations.lean ====
section
/-! DEFINITION. The statements for the provers. Each docstring names the rule or section of spec/ it
formalises. A rule the spec marks as its own inference ("derived") or decision, and a choice of this
model, is said to be one. -/

open Sys2Proof Sys2Proof.Machine

/-! ## Encoding -/

/-- 30_encoding.md section 3 (R52 to R57): a word decodes to a command exactly when it is that command's
word. So decode after encode gives the command back, no operand bit is dropped, and two words never
decode to one command. -/
def Obligations.DecodeIffEncode : Prop :=
  ∀ (w : CmdWord) (i : Instr), decode w = .command i ↔ encode i = w

/-- 30_encoding.md section 4 (R57): the reserved words are exactly those with `op` in {10, 11} and
`arg[15:8] != 0`, said here of the word as a number. -/
def Obligations.ReservedWordsExactly : Prop :=
  ∀ w : CmdWord, decode w = .reserved ↔ 2 ≤ w.toNat / 65536 ∧ w.toNat / 256 % 256 ≠ 0

/-- 30_encoding.md section 3 (R53, R54, R55): the opcode map as match and mask, each row with its
operand. -/
def Obligations.MatchAndMaskDecode : Prop :=
  ∀ w : CmdWord,
    (w &&& 0x30000#18 = 0x00000#18 ↔ decode w = .command (.size (BitVec.ofNat 16 w.toNat))) ∧
    (w &&& 0x30000#18 = 0x10000#18 ↔ decode w = .command (.init (BitVec.ofNat 16 w.toNat))) ∧
    (w &&& 0x3FF00#18 = 0x20000#18 ↔ decode w = .command (.add (BitVec.ofNat 8 w.toNat))) ∧
    (w &&& 0x3FF00#18 = 0x30000#18 ↔ decode w = .command (.tbl (BitVec.ofNat 8 w.toNat)))

/-- 30_encoding.md section 6: the encoding examples, all eleven. -/
def Obligations.SpecWordsDecode : Prop :=
  decode 0x00008#18 = .command (.size 8) ∧ decode 0x0FFFF#18 = .command (.size 65535) ∧
  decode 0x10000#18 = .command (.init 0) ∧ decode 0x10001#18 = .command (.init 1) ∧
  decode 0x1FFFF#18 = .command (.init 65535) ∧
  decode 0x20041#18 = .command (.add 0x41) ∧ decode 0x200FF#18 = .command (.add 0xFF) ∧
  decode 0x30000#18 = .command (.tbl 0x00) ∧ decode 0x30041#18 = .command (.tbl 0x41) ∧
  decode 0x20100#18 = .reserved ∧ decode 0x3FFFF#18 = .reserved

/-- 30_encoding.md section 5 (R60): a line `SIZE w`, `INIT w`, `ADD b` or `TBL b` assembles to its own
command with the operand as written, a number or for `ADD` and `TBL` an ASCII character, exactly when the
operand is in range; out of range it spells no command. That a character that is not ASCII is out of range
is R60's "a single ASCII character"; that a character as a window size spells none is the model's reading
of it (log 15). -/
def Obligations.WrittenLinesAssemble : Prop :=
  (∀ n, n < 65536 →
    assemble (.size (.num n)) = some [.size (BitVec.ofNat 16 n)] ∧
    assemble (.init (.num n)) = some [.init (BitVec.ofNat 16 n)]) ∧
  (∀ n, 65536 ≤ n → assemble (.size (.num n)) = none ∧ assemble (.init (.num n)) = none) ∧
  (∀ c, assemble (.size (.chr c)) = none ∧ assemble (.init (.chr c)) = none) ∧
  (∀ n, n < 256 →
    assemble (.add (.num n)) = some [.add (BitVec.ofNat 8 n)] ∧
    assemble (.tbl (.num n)) = some [.tbl (BitVec.ofNat 8 n)]) ∧
  (∀ n, 256 ≤ n → assemble (.add (.num n)) = none ∧ assemble (.tbl (.num n)) = none) ∧
  (∀ c : Char, c.toNat < 128 →
    assemble (.add (.chr c)) = some [.add (BitVec.ofNat 8 c.toNat)] ∧
    assemble (.tbl (.chr c)) = some [.tbl (BitVec.ofNat 8 c.toNat)]) ∧
  (∀ c : Char, 128 ≤ c.toNat → assemble (.add (.chr c)) = none ∧ assemble (.tbl (.chr c)) = none)

/-- 30_encoding.md section 5 (R61): `FEED`, in both its forms, stands for the `ADD`s of its bytes in
order; with one operand or character out of range anywhere in it, it spells no command. That a `FEED` of
nothing spells none is the model's choice (log 15). -/
def Obligations.FeedLinesAssemble : Prop :=
  (∀ bs : List Byte, bs ≠ [] →
    assemble (.feedBytes (bs.map fun b => .num b.toNat)) = some (feedCommands bs)) ∧
  (∀ cs : List Char, cs ≠ [] → (∀ c ∈ cs, c.toNat < 128) →
    assemble (.feedBytes (cs.map .chr)) =
      some (feedCommands (cs.map fun c => BitVec.ofNat 8 c.toNat)) ∧
    assemble (.feedText cs) = some (feedCommands (cs.map fun c => BitVec.ofNat 8 c.toNat))) ∧
  (∀ os n, Operand.num n ∈ os → 256 ≤ n → assemble (.feedBytes os) = none) ∧
  (∀ os (c : Char), Operand.chr c ∈ os → 128 ≤ c.toNat → assemble (.feedBytes os) = none) ∧
  (∀ cs (c : Char), c ∈ cs → 128 ≤ c.toNat → assemble (.feedText cs) = none) ∧
  assemble (.feedBytes []) = none ∧ assemble (.feedText []) = none

/-! ## The step and the port -/

/-- 00_scope.md section 4 (R8), 30_encoding.md section 2 (R50): when the host's next event is a command
word that decodes to `i`, the step is `exec i` on the state in which that event has been taken. Holding
the host's events in the state is the model's choice (log 1). -/
def Obligations.StepRunsDecodedCommand : Prop :=
  ∀ (s : State) (w : CmdWord) (rest : List HostEvent) (i : Instr),
    s.input = .command w :: rest → decode w = .command i →
      step s = exec i { s with input := rest }

/-- 30_encoding.md section 2 (R50): commands presented one after the other through the port are executed
in that order, none merged, dropped or repeated. -/
def Obligations.PortRunsCommandsInOrder : Prop :=
  ∀ (is : List Instr) (rest : List HostEvent) (s : State),
    Host.Core.run core is.length
        { s with input := (is.map fun i => HostEvent.command (encode i)) ++ rest } =
      runCommands is { s with input := rest }

/-- 60_exceptions.md sections 2 and 5 (R153, R156, R161): the refusals of a step are exactly those of the
table, `Overlap` asked first and a reserved word before any precondition; `WindowTooLarge` cannot occur at
the default capacity. That the host can present an overlapping command at all, as an event, is the model's
choice (log 18): through the port it cannot occur. -/
def Obligations.RefusalsExactly : Prop :=
  (∀ (s : State) (r : Refusal), step s = .refused r ↔
    (∃ w rest, s.input = .overlap w :: rest ∧ r = .overlap) ∨
    (∃ w rest, s.input = .command w :: rest ∧
      ((decode w = .reserved ∧ r = .reservedEncoding) ∨
        (∃ b, decode w = .command (.add b) ∧ s.engine = none ∧ r = .notInitialised) ∨
        (∃ x, decode w = .command (.init x) ∧ s.cfg.wcap.val < x.toNat ∧ r = .windowTooLarge)))) ∧
  (∀ s : State, s.cfg.wcap.val = 65535 → step s ≠ .refused .windowTooLarge)

/-- 70_reset_and_hazards.md section 5 and 60_exceptions.md section 6: with nothing presented the engine
holds its state. That a step exists then at all is the model's choice (log 1). -/
def Obligations.IdleStepHoldsState : Prop :=
  ∀ s : State, s.input = [] → step s = .next s

/-- 70_reset_and_hazards.md section 1 (R180): a reset, between commands or cutting one short, leaves the
engine uninitialised, returns no result, and touches neither the ROM nor the configuration. The model's
choices: the reset is one of the host's events, the later ones remaining (log 1, log 18), and the results
returned before it are kept (log 2). -/
def Obligations.ResetAbandonsCommand : Prop :=
  ∀ (s : State) (cut : Option CmdWord) (rest : List HostEvent), s.input = .reset cut :: rest →
    step s = .next { s with engine := none, input := rest }

/-- 10_state.md section 3 and 70_reset_and_hazards.md section 1: after reset the engine is uninitialised
and the ROM holds `TABLE`. The capacity at reset is the default of 00_scope.md section 3; carrying it in
the state is the model's choice (log 3). -/
def Obligations.ResetState : Prop :=
  State.reset.engine = none ∧ (∀ b : Byte, romRead State.reset.rom b = romRead Config.tableContents b) ∧
    State.reset.cfg.wcap.val = 65535 ∧ State.reset.cfg.hdrBytes.val ≤ 2 ^ 32 - 65536

/-- 70_reset_and_hazards.md section 1 (R173, an inference the spec marks as derived): on an uninitialised
engine `SIZE` and `TBL` complete and leave it uninitialised, `INIT W` with `W <= WCAP` completes and makes
it initialised, `ADD` is refused. -/
def Obligations.LegalWhileUninitialised : Prop :=
  ∀ s : State, s.engine = none →
    (∀ w, ∃ t, exec (.size w) s = .next t ∧ t.engine = none) ∧
    (∀ b, ∃ t, exec (.tbl b) s = .next t ∧ t.engine = none) ∧
    (∀ w : Half, w.toNat ≤ s.cfg.wcap.val → ∃ t, exec (.init w) s = .next t ∧ t.engine.isSome) ∧
    (∀ b, exec (.add b) s = .refused .notInitialised)

/-! ## SIZE, INIT, TBL -/

/-- 41_sizing_and_init.md R80: `SIZE W` has the word `0x00000 + W`, returns `HDR_BYTES + W` exactly, and
changes no state. -/
def Obligations.SizeReturnsStorageBytes : Prop :=
  ∀ (w : Half) (s : State),
    (encode (.size w)).toNat = w.toNat ∧
    ∃ v : Word, exec (.size w) s = .next { s with results := s.results ++ [.word v] } ∧
      v.toNat = s.cfg.hdrBytes.val + w.toNat

/-- 41_sizing_and_init.md section 2 (R82): from any state, `INIT W` (word `0x10000 + W`) with `W <= WCAP` gives the
fresh engine and returns no value; with `W > WCAP` it is refused (R85). That every slot holds no value
afterwards is how the model treats the bytes the hardware leaves untouched (10_state.md R23, the spec's
decision D21, log 6). -/
def Obligations.InitMakesFreshEngine : Prop :=
  ∀ (w : Half) (s : State),
    (encode (.init w)).toNat = 0x10000 + w.toNat ∧
    (w.toNat ≤ s.cfg.wcap.val →
      exec (.init w) s =
        .next { s with
          engine := some { hash := 0, wsize := w, pos := 0, filled := false, win := [] },
          results := s.results ++ [.done] }) ∧
    (s.cfg.wcap.val < w.toNat → exec (.init w) s = .refused .windowTooLarge)

/-- 40_table_lookup.md R70: `TBL b` (word `0x30000 + b`) returns the table word of `b` and changes no
state, on an uninitialised engine too. -/
def Obligations.TblReturnsTableWord : Prop :=
  ∀ (b : Byte) (s : State),
    (encode (.tbl b)).toNat = 0x30000 + b.toNat ∧
    exec (.tbl b) s =
      .next { s with results := s.results ++ [.word (s.rom[b.toNat]'b.isLt)] }

/-- 40_table_lookup.md and 41_sizing_and_init.md, "it does not disturb the hash stream": leaving every
`SIZE` and `TBL` out of a sequence of commands leaves the same engine. -/
def Obligations.SizeAndTblDoNotDisturb : Prop :=
  ∀ (is : List Instr) (s t : State), runCommands is s = .next t →
    ∃ t', runCommands (is.filter fun i => match i with
        | .size _ => false
        | .tbl _ => false
        | .init _ => true
        | .add _ => true) s = .next t' ∧ t'.engine = t.engine

/-! ## ADD -/

/-- 42_add_byte.md R109: `ADD` on an uninitialised engine is refused. -/
def Obligations.AddUninitialisedRefused : Prop :=
  ∀ (b : Byte) (s : State), s.engine = none → exec (.add b) s = .refused .notInitialised

/-- 42_add_byte.md section 4 (R108): `ADD` on a zero window. The values are the spec's own decision D8,
which the source leaves open (log 8). -/
def Obligations.AddZeroWindow : Prop :=
  ∀ (b : Byte) (s : State) (e : Engine), s.engine = some e → e.wsize = 0 →
    exec (.add b) s =
      .next { s with
        engine := some { e with hash := 0, pos := 0, filled := true },
        results := s.results ++ [.word 0] }

/-- 42_add_byte.md section 3 (the one expression of R107, for `W >= 1`): with
`evict = (filled == 1) or (pos == W)` and `p = (pos == W) ? 0 : pos`, the new hash, window, position,
flag and result. `old` is the byte slot `p` holds before the command, which matters only when it evicts:
the read comes before the write of the same slot. -/
def Obligations.AddSixSteps : Prop :=
  ∀ (b old : Byte) (s : State) (e : Engine), s.engine = some e → e.wsize ≠ 0 →
    let evict : Bool := e.filled || decide (e.pos = e.wsize)
    let p : Half := if e.pos = e.wsize then 0 else e.pos
    let h : Word := rotl32 e.hash 1 ^^^
      (if evict then rotl32 (s.rom[old.toNat]'old.isLt) (e.wsize.toNat % 32) else 0) ^^^
      s.rom[b.toNat]'b.isLt
    p.toNat < s.cfg.wcap.val → (evict = true → Memory.read e.win p.toNat = some old) →
      exec (.add b) s =
        .next { s with
          engine := some
            { hash := h, wsize := e.wsize, pos := p + 1, filled := evict,
              win := Memory.write e.win p.toNat b },
          results := s.results ++ [.word h] }

/-- 42_add_byte.md section 5 (R110) and 10_state.md R21, R24: on an initialised engine that meets the
invariant, `ADD` completes for every byte, the window slides by that byte, and the result is the BuzHash
of the new window. -/
def Obligations.AddCompletesAndSlides : Prop :=
  ∀ (b : Byte) (s : State) (e : Engine), s.Inv → s.engine = some e →
    ∃ (t : State) (e' : Engine), exec (.add b) s = .next t ∧ t.engine = some e' ∧
      windowBytes e' = lastBytes e.wsize.toNat (windowBytes e ++ [b]) ∧
      e'.hash = buzHash s.rom (lastBytes e.wsize.toNat (windowBytes e ++ [b])) ∧
      t.results = s.results ++ [.word e'.hash]

/-- 42_add_byte.md section 1 and 20_memory.md section 2: what an `ADD` leaves unchanged. It writes the
slot `e.slot` (none when `wsize = 0`), the registers `hash`, `pos` and `filled`, and nothing else. -/
def Obligations.AddFrame : Prop :=
  ∀ (b : Byte) (s t : State), exec (.add b) s = .next t →
    ∃ e e', s.engine = some e ∧ t.engine = some e' ∧
      e'.wsize = e.wsize ∧ t.rom = s.rom ∧ t.cfg = s.cfg ∧ t.input = s.input ∧
      t.results = s.results ++ [.word e'.hash] ∧
      (e.wsize = 0 → ∀ a, Memory.read e'.win a = Memory.read e.win a) ∧
      (e.wsize ≠ 0 → ∀ a, a ≠ e.slot.toNat → Memory.read e'.win a = Memory.read e.win a)

/-- 10_state.md R12 and 42_add_byte.md sections 2 and 4: the flag after an `ADD` is set exactly when the
window was full before it, and always in a zero window; so no `ADD` clears it. -/
def Obligations.AddFilledRule : Prop :=
  ∀ (b : Byte) (s t : State) (e e' : Engine), exec (.add b) s = .next t → s.engine = some e →
    t.engine = some e' →
      (e'.filled = true ↔ e.wsize = 0 ∨ e.filled = true ∨ e.pos = e.wsize) ∧
      (e.filled = true → e'.filled = true)

/-! ## Rules over every command and every step -/

/-- 00_scope.md section 4, 20_memory.md and 30_encoding.md section 2: a completed command returns exactly
one result, and changes neither the ROM, nor the configuration, nor what the host presents next; `SIZE`
and `TBL` change nothing of the engine either, so every slot of the window reads as before. -/
def Obligations.CommandFrame : Prop :=
  ∀ (i : Instr) (s t : State), exec i s = .next t →
    (∃ r, t.results = s.results ++ [r]) ∧ t.rom = s.rom ∧ t.cfg = s.cfg ∧ t.input = s.input ∧
      ((∃ w, i = .size w) ∨ (∃ b, i = .tbl b) → t.engine = s.engine)

/-- 20_memory.md R36: no step writes the ROM, whatever the host does: command, reset or nothing. -/
def Obligations.RomNeverWritten : Prop :=
  ∀ s t : State, step s = .next t → t.rom = s.rom

/-- 41_sizing_and_init.md R86: from one `INIT` to the next `INIT` or reset, no step changes `wsize`. -/
def Obligations.WindowSizeImmutable : Prop :=
  ∀ (s t : State) (e : Engine), step s = .next t → s.engine = some e →
    (∀ w rest x, s.input = .command w :: rest → decode w ≠ .command (.init x)) →
    (∀ cut rest, s.input ≠ .reset cut :: rest) →
      ∃ e', t.engine = some e' ∧ e'.wsize = e.wsize

/-- 10_state.md R17: an instance is initialised from the completion of an `INIT` until the next reset, and
uninitialised from reset until the first `INIT`. -/
def Obligations.InitialisedFromInitUntilReset : Prop :=
  ∀ s t : State, step s = .next t →
    (t.engine.isSome ↔
      (∃ w rest x, s.input = .command w :: rest ∧ decode w = .command (.init x)) ∨
      (s.engine.isSome ∧ ∀ cut rest, s.input ≠ .reset cut :: rest))

/-! ## The invariant -/

/-- 10_state.md section 2 and 20_memory.md R33, R34: every step from a state that meets the invariant
leaves one that meets it. -/
def Obligations.StepKeepsInvariant : Prop :=
  ∀ s t : State, s.Inv → step s = .next t → t.Inv

/-- 10_state.md section 3: the state after reset meets the invariant. -/
def Obligations.ResetMeetsInvariant : Prop := State.reset.Inv

/-- 60_exceptions.md section 1 (R150), 20_memory.md section 2 (R33, R34): from a state that meets the
invariant no step faults: no access leaves the window RAM, and no slot is read before it is written. The
two faults are the model's (log 7). -/
def Obligations.NoFaultUnderInvariant : Prop :=
  ∀ (s : State) (f : Fault), s.Inv → step s ≠ .fault f

/-- 20_memory.md section 2 (R31, R32): a slot holds the byte last written to it, and a write changes no
other slot. -/
def Obligations.WindowReadAfterWrite : Prop :=
  ∀ (m : Memory) (a : Nat) (v : Byte),
    Memory.read (Memory.write m a v) a = some v ∧
      ∀ a', a' ≠ a → Memory.read (Memory.write m a v) a' = Memory.read m a'

/-! ## The rotate -/

/-- 00_scope.md section 5 (R9; the direction is general knowledge, G1, log 9): bit `i` moves to bit
`(i + m) mod 32`, with `m = n mod 32`. -/
def Obligations.RotateMovesBits : Prop :=
  ∀ (x : Word) (n i : Nat), i < 32 →
    (rotl32 x n).getLsbD ((i + n % 32) % 32) = x.getLsbD i

/-- 00_scope.md section 5 (R9; G1, log 9): the rotate as arithmetic. -/
def Obligations.RotateArithmetic : Prop :=
  ∀ (x : Word) (n : Nat),
    (n % 32 = 0 → rotl32 x n = x) ∧
    (n % 32 ≠ 0 → (rotl32 x n).toNat =
      x.toNat * 2 ^ (n % 32) % 2 ^ 32 + x.toNat / 2 ^ (32 - n % 32))

/-! ## Hash streams -/

/-- 45_properties.md section 1 (R130, which the spec marks as derived): for every window size that fits
and every byte string, from any state, the stream completes, each result is the BuzHash of the last
`min(k, W)` bytes fed so far, and the stored hash is that of all of them. -/
def Obligations.StreamClosedForm : Prop :=
  ∀ (w : Half) (bs : List Byte) (s : State), w.toNat ≤ s.cfg.wcap.val →
    ∃ (t : State) (e : Engine), runStream w bs s = .next t ∧ t.engine = some e ∧
      e.hash = buzHash s.rom (lastBytes w.toNat bs) ∧
      t.results = s.results ++ .done ::
        (List.range bs.length).map fun k =>
          .word (buzHash s.rom (lastBytes w.toNat (bs.take (k + 1))))

/-- 45_properties.md section 1 (R140, which the spec marks as derived; also 10_state.md R18, R20, R21): the
stored state after `k` `ADD`s. Byte number `j + 1` is `bs[j]`; slot `i` holds the last byte whose number
less one is `i` modulo `W`. That the other slots hold no value rests on log 6. -/
def Obligations.StreamStoredState : Prop :=
  ∀ (w : Half) (bs : List Byte) (s : State), w.toNat ≤ s.cfg.wcap.val →
    ∃ (t : State) (e : Engine), runStream w bs s = .next t ∧ t.engine = some e ∧ e.wsize = w ∧
      (w = 0 → e.pos = 0 ∧ (e.filled = true ↔ 1 ≤ bs.length) ∧ e.win = []) ∧
      (w ≠ 0 →
        e.pos.toNat = (if bs.length = 0 then 0 else (bs.length - 1) % w.toNat + 1) ∧
        (e.filled = true ↔ w.toNat + 1 ≤ bs.length) ∧
        (∀ i j, i < w.toNat → j < bs.length → j % w.toNat = i → bs.length ≤ j + w.toNat →
          Memory.read e.win i = bs[j]?) ∧
        (∀ i, min bs.length w.toNat ≤ i → Memory.read e.win i = none))

/-- 45_properties.md section 2 (R133): after `windowSize` or more bytes the returned hash depends only on
the last `windowSize` bytes: any two prefixes, of any lengths, give the same hash. -/
def Obligations.StreamWindowOnly : Prop :=
  ∀ (w : Half) (p q bs : List Byte) (s : State), w.toNat ≤ s.cfg.wcap.val → w.toNat ≤ bs.length →
    ∃ t u e d, runStream w (p ++ bs) s = .next t ∧ runStream w (q ++ bs) s = .next u ∧
      t.engine = some e ∧ u.engine = some d ∧ e.hash = d.hash

/-- 45_properties.md R135: `k <= W` bytes hash alike in windows of size `W` and of size `k`; for `k = 0`
the hash is 0. -/
def Obligations.StreamGrowingWindow : Prop :=
  ∀ (w k : Half) (bs : List Byte) (s : State), w.toNat ≤ s.cfg.wcap.val → bs.length = k.toNat →
    k.toNat ≤ w.toNat →
      ∃ t u e d, runStream w bs s = .next t ∧ runStream k bs s = .next u ∧
        t.engine = some e ∧ u.engine = some d ∧ e.hash = d.hash ∧ (k = 0 → d.hash = 0)

/-- 45_properties.md section 2 (R132): for a fixed window size, byte sequence and table, runs from any two states
return the same results and leave the same engine: nothing of an earlier stream has any influence
(41_sizing_and_init.md R84). That the window RAM too is the same rests on the model's treatment of stale
bytes (log 6). -/
def Obligations.StreamDeterminism : Prop :=
  ∀ (w : Half) (bs : List Byte) (s s' t : State), s'.rom = s.rom → s'.cfg = s.cfg →
    runStream w bs s = .next t →
      ∃ (t' : State) (rs : List Result), runStream w bs s' = .next t' ∧ t'.engine = t.engine ∧
        t.results = s.results ++ rs ∧ t'.results = s'.results ++ rs

/-- 45_properties.md section 2 (R134, an inference the spec marks as derived): two bytes in the two orders
hash alike in a window of 2 exactly when the exclusive or of their words is all zeros or all ones. -/
def Obligations.OrderSensitivityCondition : Prop :=
  ∀ (a b : Byte) (s : State), 2 ≤ s.cfg.wcap.val →
    ∃ t u e d, runStream 2 [a, b] s = .next t ∧ runStream 2 [b, a] s = .next u ∧
      t.engine = some e ∧ u.engine = some d ∧
      (e.hash = d.hash ↔
        romRead s.rom a ^^^ romRead s.rom b = 0 ∨ romRead s.rom a ^^^ romRead s.rom b = 0xFFFFFFFF)

/-- 45_properties.md section 1 (R141, an inference the spec marks as derived): with `W = 64`, a window
made of one 32-byte block twice has hash 0, whatever the table and whatever was fed before. -/
def Obligations.PeriodThirtyTwoCancels : Prop :=
  ∀ (p block : List Byte) (s : State), 64 ≤ s.cfg.wcap.val → block.length = 32 →
    ∃ t e, runStream 64 (p ++ block ++ block) s = .next t ∧ t.engine = some e ∧ e.hash = 0

/-- 45_properties.md R138: after `INIT 1` and `ADD 0x41` the result and the hash are the table word,
unrotated, with `pos = 1`, `filled = 0` and the byte in slot 0; the rotated word exists only inside the
next `ADD`, after its step 2. -/
def Obligations.OneByteScenario : Prop :=
  ∀ s : State, 1 ≤ s.cfg.wcap.val →
    ∃ t e, runStream 1 [0x41] s = .next t ∧ t.engine = some e ∧
      e.hash = romRead s.rom 0x41 ∧
      t.results = s.results ++ [.done, .word (romRead s.rom 0x41)] ∧
      e.pos = 1 ∧ e.filled = false ∧ e.win = [(0, 0x41)] ∧
      (stepAge (stepWrap e.wsize (loadWork e))).h = rotl32 (romRead s.rom 0x41) 1 ∧
      ∀ b, ∃ u, exec (.add b) t = .next u ∧ u.results = t.results ++ [.word (romRead s.rom b)]

/-- 45_properties.md R139: where the phrase ends in the text, the scan's result is the phrase's hash. Among
the results of one stream, number 0 is that of `INIT` and number `j` that of the `j`-th byte. -/
def Obligations.SubstringFound : Prop :=
  ∀ (l : Half) (before phrase after : List Byte) (s : State), l.toNat ≤ s.cfg.wcap.val →
    phrase.length = l.toNat → 1 ≤ l.toNat →
      ∃ t u hash, runStream l (before ++ phrase ++ after) s = .next t ∧
        runStream l phrase s = .next u ∧
        u.results.getLast? = some (.word hash) ∧
        t.results[s.results.length + before.length + phrase.length]? = some (.word hash)

/-- 45_properties.md section 1 (R142, which the spec marks as derived): the rolling recurrence, for
`W >= 1`, between the hash after `bs` and the hash after one byte more. -/
def Obligations.RollingRecurrence : Prop :=
  ∀ (w : Half) (bs : List Byte) (b : Byte) (s : State), w.toNat ≤ s.cfg.wcap.val → 1 ≤ w.toNat →
    ∃ t u e d, runStream w bs s = .next t ∧ runStream w (bs ++ [b]) s = .next u ∧
      t.engine = some e ∧ u.engine = some d ∧
      (bs.length < w.toNat → d.hash = rotl32 e.hash 1 ^^^ romRead s.rom b) ∧
      (∀ old, w.toNat ≤ bs.length → bs[bs.length - w.toNat]? = some old →
        d.hash = rotl32 e.hash 1 ^^^ rotl32 (romRead s.rom old) (w.toNat % 32) ^^^ romRead s.rom b)

/-! ## Several instances -/

/-- 60_exceptions.md section 5 (R160), 10_state.md R27: under any interleaving, each instance comes to what
its own share of the steps, `ks.count j` of them, gives it alone: where it alone completes them it is
running with exactly that state, results included, and where it alone stops it has stopped for that
reason, whatever the other instances do. The one table stays as it is. The product is the model's form of
it (log 14). -/
def Obligations.InstancesIndependent : Prop :=
  ∀ (ks : List Nat) (sys : System),
    (System.run ks sys).rom = sys.rom ∧
    (System.run ks sys).members.length = sys.members.length ∧
    ∀ j : Nat,
      (∀ o, sys.members[j]? = some (.running o) →
        (∀ t, Host.Core.run core (ks.count j) (o.withRom sys.rom) = .next t →
          (System.run ks sys).members[j]? = some (.running t.own) ∧ t.own.withRom sys.rom = t) ∧
        (∀ f, Host.Core.run core (ks.count j) (o.withRom sys.rom) = .fault f →
          (System.run ks sys).members[j]? = some (.faulted f)) ∧
        (∀ r, Host.Core.run core (ks.count j) (o.withRom sys.rom) = .refused r →
          (System.run ks sys).members[j]? = some (.refused r))) ∧
      (∀ f, sys.members[j]? = some (.faulted f) →
        (System.run ks sys).members[j]? = some (.faulted f)) ∧
      (∀ r, sys.members[j]? = some (.refused r) →
        (System.run ks sys).members[j]? = some (.refused r))

/-- 60_exceptions.md section 5 (R160): when each instance alone completes its share of a schedule, the
system completes the schedule: every instance is still running, each in the state it reaches alone
(log 14). -/
def Obligations.SystemCompletesSchedule : Prop :=
  ∀ (ks : List Nat) (rom : Vector Word 256) (start finish : List State),
    start.length = finish.length → (∀ s ∈ start, s.rom = rom) →
    (∀ (j : Nat) (s t : State), start[j]? = some s → finish[j]? = some t →
      Host.Core.run core (ks.count j) s = .next t) →
      System.run ks { rom := rom, members := start.map fun s => .running s.own } =
        { rom := rom, members := finish.map fun t => .running t.own }

/-! ## Runs without end -/

/-- 00_scope.md R8: an endless run under a host, from any state, is exactly what its finite prefixes give:
it exists when every prefix completes, and then there is just one. That the host acts outside the state is
the model's form of it (log 20). -/
def Obligations.EndlessRunIffPrefixes : Prop :=
  ∀ (h : HostBehaviour) (s : State),
    (∀ states : Nat → State, (states 0 = s ∧ IsRun h states) ↔
      ∀ n, runUnder h n s = .next (states n)) ∧
    ((∀ n, ∃ t, runUnder h n s = .next t) ↔ ∃ states : Nat → State, states 0 = s ∧ IsRun h states)

/-- 00_scope.md R8, 60_exceptions.md section 6: the first `n` moments of any host, pauses in it or not,
give what the finite run gives whose state lists the host's events of these moments. So what holds of
every finite run holds of every prefix of an endless one (log 1, log 20). -/
def Obligations.RunUnderIsFiniteRun : Prop :=
  ∀ (h : HostBehaviour) (n : Nat) (s : State),
    runUnder h n { s with input := [] } =
      Host.Core.run core ((List.range n).filterMap h).length
        { s with input := (List.range n).filterMap h }

/-- 10_state.md section 2 and 20_memory.md section 2 (R33, R34) over runs (00_scope.md R8): whatever the
host does, a run from a state that meets the invariant never faults and stays within it; so does every
endless run from reset, at each of its states (log 7, log 20). -/
def Obligations.RunsKeepInvariant : Prop :=
  (∀ (h : HostBehaviour) (n : Nat) (s : State), s.Inv →
    (∀ t, runUnder h n s = .next t → t.Inv) ∧ ∀ f, runUnder h n s ≠ .fault f) ∧
  ∀ (h : HostBehaviour) (states : Nat → State), IsRunFromReset h states → ∀ n, (states n).Inv

/-- 00_scope.md R8 and 45_properties.md section 1 (R130, which the spec marks as derived): for every window
size that fits and every endless byte sequence, from any state with nothing presented, the endless stream
runs: no step of it stops, `INIT` returns no value, and each byte's result and the stored hash are the
BuzHash of the last `min(k, W)` bytes fed so far. The form of the run is the model's (log 20). -/
def Obligations.EndlessStreamRuns : Prop :=
  ∀ (w : Half) (bytes : Nat → Byte) (s : State), w.toNat ≤ s.cfg.wcap.val → s.input = [] →
    ∃ states : Nat → State,
      states 0 = s ∧ IsRun (presentForever (streamForever w bytes)) states ∧
      (states 1).results = s.results ++ [.done] ∧
      ∀ n, ∃ e, (states (n + 2)).engine = some e ∧
        e.hash = buzHash s.rom (lastBytes w.toNat ((List.range (n + 1)).map bytes)) ∧
        (states (n + 2)).results = (states (n + 1)).results ++ [.word e.hash]

/-- 60_exceptions.md section 5 (R160), 00_scope.md R8: at every moment of an endless interleaving, each
instance that started with nothing presented is where its own host alone would have it, running or stopped,
an instance that had stopped stays stopped, and the one table is as it was (log 14, log 20). -/
def Obligations.EndlessInterleavingIndependent : Prop :=
  ∀ (h : Interleaving) (n : Nat) (sys : System),
    (System.runUnder h n sys).rom = sys.rom ∧
    (System.runUnder h n sys).members.length = sys.members.length ∧
    ∀ j : Nat,
      (∀ o, sys.members[j]? = some (.running o) → o.input = [] →
        (System.runUnder h n sys).members[j]? =
          some (memberAfter (runUnder (h.hostOf j) n (o.withRom sys.rom)))) ∧
      (∀ f, sys.members[j]? = some (.faulted f) →
        (System.runUnder h n sys).members[j]? = some (.faulted f)) ∧
      (∀ r, sys.members[j]? = some (.refused r) →
        (System.runUnder h n sys).members[j]? = some (.refused r))
end

