-- ==== Sys2Proof/Laws/Memory.lean ====
section
/-! SUPPORT. The window RAM: every operation keeps the canonical form, and what a read gives after a
write to a prefix of slots. -/

namespace Sys2Proof.Machine

/-- A write adds no address but its own. -/
theorem write_addresses (m : Memory) (a x : Nat) (v : Byte)
    (h : x ∈ (Memory.write m a v).map Prod.fst) : x = a ∨ x ∈ m.map Prod.fst := by
  induction m with
  | nil => simpa [Memory.write] using h
  | cons c m ih =>
    obtain ⟨k, u⟩ := c
    simp only [Memory.write] at h
    split at h
    · simpa using h
    · split at h <;> simp only [List.map_cons, List.mem_cons] at h ⊢ <;> grind

/-- A write keeps the canonical form. -/
theorem write_wf (m : Memory) (a : Nat) (v : Byte) (h : Memory.wf m) :
    Memory.wf (Memory.write m a v) := by
  induction m with
  | nil => simp [Memory.write, Memory.wf]
  | cons c m ih =>
    obtain ⟨k, u⟩ := c
    simp only [Memory.wf, List.map_cons, List.pairwise_cons] at h ih ⊢
    simp only [Memory.write]
    split
    · simp only [List.map_cons, List.pairwise_cons, List.mem_cons]
      grind
    · split
      · simp only [List.map_cons, List.pairwise_cons]
        grind
      · simp only [List.map_cons, List.pairwise_cons]
        refine ⟨fun x hx => ?_, ih h.2⟩
        rcases write_addresses m a x v hx with rfl | hx
        · omega
        · exact h.1 x hx

/-- The window of a fresh engine lists nothing, and that is canonical. -/
theorem nil_wf : Memory.wf [] := List.Pairwise.nil

/-- A byte that is read stands in the list. -/
theorem mem_of_read (m : Memory) (a : Nat) (v : Byte) (h : Memory.read m a = some v) : (a, v) ∈ m := by
  induction m with
  | nil => simp [Memory.read] at h
  | cons c m ih =>
    obtain ⟨k, u⟩ := c
    simp only [Memory.read] at h
    split at h
    · simp_all
    · exact List.mem_cons_of_mem _ (ih h)

/-- What a checked read can do (20_memory.md R31, R33, R34). -/
theorem winRead_ok_iff (cap : Nat) (m : Memory) (a : Half) (v : Byte) :
    winRead cap m a = .ok v ↔ a.toNat < cap ∧ Memory.read m a.toNat = some v := by
  unfold winRead
  split
  · split <;> simp_all
  · simp_all

/-- What a checked write can do (20_memory.md R32, R33). -/
theorem winWrite_ok_iff (cap : Nat) (m m' : Memory) (a : Half) (v : Byte) :
    winWrite cap m a v = .ok m' ↔ a.toNat < cap ∧ m' = Memory.write m a.toNat v := by
  unfold winWrite
  split <;> simp_all [eq_comm]

/-- In a memory whose slots `k, k+1, ...` are written in order, the read of slot `k + i` is the `i`-th
byte. -/
theorem read_of_range' (m : Memory) (k n i : Nat) (h : m.map Prod.fst = List.range' k n) :
    Memory.read m (k + i) = (m.map Prod.snd)[i]? := by
  induction m generalizing k n i with
  | nil => simp [Memory.read]
  | cons c m ih =>
    obtain ⟨a, u⟩ := c
    cases n with
    | zero => simp at h
    | succ n =>
      simp only [List.map_cons, List.range'_succ, List.cons.injEq] at h
      obtain ⟨rfl, h⟩ := h
      cases i with
      | zero => simp [Memory.read]
      | succ i =>
        have := ih (a + 1) n i h
        simp only [Memory.read, List.map_cons, List.getElem?_cons_succ, ← this]
        rw [if_neg (by omega)]
        congr 1
        omega

/-- In a memory whose slots `0 .. n-1` are written, the read of slot `i` is the `i`-th byte. -/
theorem read_of_range (m : Memory) (n i : Nat) (h : m.map Prod.fst = List.range n) :
    Memory.read m i = (m.map Prod.snd)[i]? := by
  simpa using read_of_range' m 0 n i (by rw [h, List.range_eq_range'])

/-- Writing the next slot of such a memory appends. -/
theorem write_append' (m : Memory) (k n : Nat) (v : Byte) (h : m.map Prod.fst = List.range' k n) :
    Memory.write m (k + n) v = m ++ [(k + n, v)] := by
  induction m generalizing k n with
  | nil =>
    cases n with
    | zero => simp [Memory.write]
    | succ n => simp [List.range'_succ] at h
  | cons c m ih =>
    obtain ⟨a, u⟩ := c
    cases n with
    | zero => simp at h
    | succ n =>
      simp only [List.map_cons, List.range'_succ, List.cons.injEq] at h
      obtain ⟨rfl, h⟩ := h
      have := ih (a + 1) n h
      rw [show a + 1 + n = a + (n + 1) by omega] at this
      simp only [Memory.write, List.cons_append]
      rw [if_neg (by omega), if_neg (by omega), this]

/-- Writing slot `n` where slots `0 .. n-1` are written appends the byte. -/
theorem write_append (m : Memory) (n : Nat) (v : Byte) (h : m.map Prod.fst = List.range n) :
    Memory.write m n v = m ++ [(n, v)] := by
  simpa using write_append' m 0 n v (by rw [h, List.range_eq_range'])

/-- Writing a slot already written changes its byte in place. -/
theorem write_set' (m : Memory) (k n i : Nat) (v : Byte) (h : m.map Prod.fst = List.range' k n)
    (hi : i < n) : Memory.write m (k + i) v = m.set i (k + i, v) := by
  induction m generalizing k n i with
  | nil => simp at h; omega
  | cons c m ih =>
    obtain ⟨a, u⟩ := c
    cases n with
    | zero => simp at h
    | succ n =>
      simp only [List.map_cons, List.range'_succ, List.cons.injEq] at h
      obtain ⟨rfl, h⟩ := h
      cases i with
      | zero => simp [Memory.write]
      | succ i =>
        have := ih (a + 1) n i h (by omega)
        rw [show a + 1 + i = a + (i + 1) by omega] at this
        simp only [Memory.write, List.set_cons_succ]
        rw [if_neg (by omega), if_neg (by omega), this]

/-- Writing slot `i < n` where slots `0 .. n-1` are written changes its byte in place. -/
theorem write_set (m : Memory) (n i : Nat) (v : Byte) (h : m.map Prod.fst = List.range n) (hi : i < n) :
    Memory.write m i v = m.set i (i, v) := by
  simpa using write_set' m 0 n i v (by rw [h, List.range_eq_range']) hi

end Sys2Proof.Machine
end

