-- ==== Sys2Proof/Laws/State.lean ====
section
/-! SUPPORT. One lemma per field per update of the state, of an engine's record and of the working copies,
so that no proof unfolds a record update. -/

namespace Sys2Proof.Machine

section Respond
variable (s : State) (r : Result)
@[simp] theorem respond_engine : (s.respond r).engine = s.engine := rfl
@[simp] theorem respond_rom : (s.respond r).rom = s.rom := rfl
@[simp] theorem respond_cfg : (s.respond r).cfg = s.cfg := rfl
@[simp] theorem respond_input : (s.respond r).input = s.input := rfl
@[simp] theorem respond_results : (s.respond r).results = s.results ++ [r] := rfl
end Respond

section SetEngine
variable (s : State) (e : Engine)
@[simp] theorem setEngine_engine : (s.setEngine e).engine = some e := rfl
@[simp] theorem setEngine_rom : (s.setEngine e).rom = s.rom := rfl
@[simp] theorem setEngine_cfg : (s.setEngine e).cfg = s.cfg := rfl
@[simp] theorem setEngine_input : (s.setEngine e).input = s.input := rfl
@[simp] theorem setEngine_results : (s.setEngine e).results = s.results := rfl
end SetEngine

section SetInput
variable (s : State) (es : List HostEvent)
@[simp] theorem setInput_engine : (s.setInput es).engine = s.engine := rfl
@[simp] theorem setInput_rom : (s.setInput es).rom = s.rom := rfl
@[simp] theorem setInput_cfg : (s.setInput es).cfg = s.cfg := rfl
@[simp] theorem setInput_input : (s.setInput es).input = es := rfl
@[simp] theorem setInput_results : (s.setInput es).results = s.results := rfl
end SetInput

section HardReset
variable (s : State)
@[simp] theorem hardReset_engine : s.hardReset.engine = none := rfl
@[simp] theorem hardReset_rom : s.hardReset.rom = s.rom := rfl
@[simp] theorem hardReset_cfg : s.hardReset.cfg = s.cfg := rfl
@[simp] theorem hardReset_input : s.hardReset.input = s.input := rfl
@[simp] theorem hardReset_results : s.hardReset.results = s.results := rfl
end HardReset

section PresentFirst
variable (s : State) (w : CmdWord)
@[simp] theorem presentFirst_engine : (s.presentFirst w).engine = s.engine := rfl
@[simp] theorem presentFirst_rom : (s.presentFirst w).rom = s.rom := rfl
@[simp] theorem presentFirst_cfg : (s.presentFirst w).cfg = s.cfg := rfl
@[simp] theorem presentFirst_input : (s.presentFirst w).input = .command w :: s.input := rfl
@[simp] theorem presentFirst_results : (s.presentFirst w).results = s.results := rfl
end PresentFirst

section Reset
@[simp] theorem reset_engine : State.reset.engine = none := rfl
@[simp] theorem reset_rom : State.reset.rom = Config.tableContents := rfl
@[simp] theorem reset_cfg : State.reset.cfg = Config.device := rfl
@[simp] theorem reset_input : State.reset.input = [] := rfl
@[simp] theorem reset_results : State.reset.results = [] := rfl
end Reset

section FreshEngine
variable (w : Half)
@[simp] theorem freshEngine_hash : (freshEngine w).hash = 0 := rfl
@[simp] theorem freshEngine_wsize : (freshEngine w).wsize = w := rfl
@[simp] theorem freshEngine_pos : (freshEngine w).pos = 0 := rfl
@[simp] theorem freshEngine_filled : (freshEngine w).filled = false := rfl
@[simp] theorem freshEngine_win : (freshEngine w).win = [] := rfl
end FreshEngine

section ZeroWindow
variable (e : Engine)
@[simp] theorem zeroWindow_hash : (zeroWindow e).hash = 0 := rfl
@[simp] theorem zeroWindow_wsize : (zeroWindow e).wsize = e.wsize := rfl
@[simp] theorem zeroWindow_pos : (zeroWindow e).pos = 0 := rfl
@[simp] theorem zeroWindow_filled : (zeroWindow e).filled = true := rfl
@[simp] theorem zeroWindow_win : (zeroWindow e).win = e.win := rfl
end ZeroWindow

section WriteBack
variable (e : Engine) (m : Memory) (x : Work)
@[simp] theorem writeBack_hash : (writeBack e m x).hash = x.h := rfl
@[simp] theorem writeBack_wsize : (writeBack e m x).wsize = e.wsize := rfl
@[simp] theorem writeBack_pos : (writeBack e m x).pos = x.p := rfl
@[simp] theorem writeBack_filled : (writeBack e m x).filled = x.f := rfl
@[simp] theorem writeBack_win : (writeBack e m x).win = m := rfl
end WriteBack

section Work
variable (e : Engine) (x : Work) (rom : Vector Word 256) (b : Byte)
@[simp] theorem loadWork_p : (loadWork e).p = e.pos := rfl
@[simp] theorem loadWork_f : (loadWork e).f = e.filled := rfl
@[simp] theorem loadWork_h : (loadWork e).h = e.hash := rfl
@[simp] theorem stepAge_p : (stepAge x).p = x.p := rfl
@[simp] theorem stepAge_f : (stepAge x).f = x.f := rfl
@[simp] theorem stepAge_h : (stepAge x).h = rotl32 x.h 1 := rfl
@[simp] theorem stepAdvance_p : (stepAdvance x).p = x.p + 1 := rfl
@[simp] theorem stepAdvance_f : (stepAdvance x).f = x.f := rfl
@[simp] theorem stepAdvance_h : (stepAdvance x).h = x.h := rfl
@[simp] theorem stepInsert_p : (stepInsert rom b x).p = x.p := rfl
@[simp] theorem stepInsert_f : (stepInsert rom b x).f = x.f := rfl
@[simp] theorem stepInsert_h : (stepInsert rom b x).h = x.h ^^^ romRead rom b := rfl
end Work

end Sys2Proof.Machine
end

