-- ==== Sys2Proof/Laws/Ops.lean ====
section
/-! SUPPORT. For each shared operation, and for `exec` and `step`, one lemma that says everything it can
do. -/

namespace Sys2Proof.Machine

/-- The slot of the next `ADD`, as the expression of 42_add_byte.md R107. -/
theorem slot_eq (e : Engine) : e.slot = if e.pos = e.wsize then 0 else e.pos := by
  by_cases h : e.pos = e.wsize <;> simp [Engine.slot, stepWrap, loadWork, h]

/-- What steps 1 and 2 leave in the working copies. -/
theorem age_wrap_eq (e : Engine) :
    stepAge (stepWrap e.wsize (loadWork e)) = { p := e.slot, f := e.full, h := rotl32 e.hash 1 } := by
  by_cases h : e.pos = e.wsize <;> simp [stepAge, Engine.slot, Engine.full, stepWrap, loadWork, h]

/-- What `stepEvict` can do, when it does not fault. -/
theorem stepEvict_ok_iff (cap : Nat) (rom : Vector Word 256) (w : Half) (m : Memory) (x y : Work) :
    stepEvict cap rom w m x = .ok y ↔
      (x.f = false ∧ y = x) ∨
      (x.f = true ∧ x.p.toNat < cap ∧ ∃ old, Memory.read m x.p.toNat = some old ∧
        y = { x with h := x.h ^^^ rotl32 (romRead rom old) (evictAmount w) }) := by
  unfold stepEvict
  cases hf : x.f with
  | false => simp [eq_comm]
  | true =>
    cases hr : winRead cap m x.p with
    | ok old =>
      obtain ⟨hc, hr⟩ := (winRead_ok_iff ..).1 hr
      simp [hc, hr, eq_comm]
    | error f =>
      refine ⟨fun h => by simp at h, ?_⟩
      rintro (⟨h, -⟩ | ⟨-, hc, old, ho, -⟩)
      · cases h
      · rw [(winRead_ok_iff ..).2 ⟨hc, ho⟩] at hr
        cases hr

/-- The engine an `ADD` leaves when the window is not full before it (42_add_byte.md R107). -/
def growEngine (rom : Vector Word 256) (e : Engine) (b : Byte) : Engine :=
  { e with
    hash := rotl32 e.hash 1 ^^^ romRead rom b
    pos := e.slot + 1
    filled := false
    win := Memory.write e.win e.slot.toNat b }

/-- The engine an `ADD` leaves when it evicts the byte `old` (42_add_byte.md R107). -/
def rollEngine (rom : Vector Word 256) (e : Engine) (old b : Byte) : Engine :=
  { e with
    hash := rotl32 e.hash 1 ^^^ rotl32 (romRead rom old) (evictAmount e.wsize) ^^^ romRead rom b
    pos := e.slot + 1
    filled := true
    win := Memory.write e.win e.slot.toNat b }

/-- Everything the six steps can do, when they do not fault. -/
theorem addSteps_ok_iff (cap : Nat) (rom : Vector Word 256) (e e' : Engine) (b : Byte) :
    addSteps cap rom e b = .ok e' ↔
      e.slot.toNat < cap ∧
        ((e.full = false ∧ e' = growEngine rom e b) ∨
          (e.full = true ∧ ∃ old, Memory.read e.win e.slot.toNat = some old ∧
            e' = rollEngine rom e old b)) := by
  unfold addSteps
  rw [age_wrap_eq]
  cases hx : stepEvict cap rom e.wsize e.win { p := e.slot, f := e.full, h := rotl32 e.hash 1 } with
  | error f =>
    refine ⟨fun h => by simp at h, ?_⟩
    rintro ⟨hc, ⟨hf, -⟩ | ⟨hf, old, ho, -⟩⟩
    · have hy := (stepEvict_ok_iff cap rom e.wsize e.win
        { p := e.slot, f := e.full, h := rotl32 e.hash 1 } _).2 (.inl ⟨hf, rfl⟩)
      rw [hy] at hx
      cases hx
    · have hy := (stepEvict_ok_iff cap rom e.wsize e.win
        { p := e.slot, f := e.full, h := rotl32 e.hash 1 } _).2 (.inr ⟨hf, hc, old, ho, rfl⟩)
      rw [hy] at hx
      cases hx
  | ok x =>
    rcases (stepEvict_ok_iff ..).1 hx with ⟨hf, rfl⟩ | ⟨hf, hc, old, ho, rfl⟩
    · simp only at hf
      cases hw : winWrite cap e.win e.slot b with
      | ok m =>
        obtain ⟨hc, rfl⟩ := (winWrite_ok_iff ..).1 hw
        simp [hw, hf, hc, growEngine, writeBack, stepInsert, stepAdvance, eq_comm]
      | error f =>
        refine ⟨fun h => by simp [hw] at h, ?_⟩
        rintro ⟨hc, -⟩
        rw [(winWrite_ok_iff cap e.win _ e.slot b).2 ⟨hc, rfl⟩] at hw
        cases hw
    · simp only at hf hc ho
      have hw := (winWrite_ok_iff cap e.win _ e.slot b).2 ⟨hc, rfl⟩
      simp [hw, hf, hc, ho, rollEngine, writeBack, stepInsert, stepAdvance, eq_comm]

/-- Everything `ADD` can do to an initialised engine, when it does not fault (42_add_byte.md R107,
R108). -/
theorem addEngine_ok_iff (cap : Nat) (rom : Vector Word 256) (e e' : Engine) (b : Byte) :
    addEngine cap rom e b = .ok e' ↔
      (e.wsize = 0 ∧ e' = zeroWindow e) ∨
      (e.wsize ≠ 0 ∧ e.slot.toNat < cap ∧
        ((e.full = false ∧ e' = growEngine rom e b) ∨
          (e.full = true ∧ ∃ old, Memory.read e.win e.slot.toNat = some old ∧
            e' = rollEngine rom e old b))) := by
  unfold addEngine
  by_cases h : e.wsize = 0
  · simp only [h, if_true, true_and, ne_eq, not_true_eq_false, false_and, or_false, Except.ok.injEq]
    exact eq_comm
  · simp only [h, if_false, false_and, ne_eq, not_false_eq_true, true_and, false_or, addSteps_ok_iff]

/-- What an `ADD` never changes in the record, and that it leaves the canonical form (41_sizing_and_init.md
R86). -/
theorem addEngine_keeps (cap : Nat) (rom : Vector Word 256) (e e' : Engine) (b : Byte)
    (h : addEngine cap rom e b = .ok e') :
    e'.wsize = e.wsize ∧ (Memory.wf e.win → Memory.wf e'.win) := by
  rcases (addEngine_ok_iff ..).1 h with ⟨-, rfl⟩ | ⟨-, -, ⟨-, rfl⟩ | ⟨-, old, -, rfl⟩⟩
  · exact ⟨rfl, id⟩
  · exact ⟨rfl, write_wf _ _ _⟩
  · exact ⟨rfl, write_wf _ _ _⟩

/-- Everything `INIT` can do. -/
theorem execInit_next_iff (w : Half) (s t : State) :
    execInit w s = .next t ↔
      w.toNat ≤ s.cfg.wcap.val ∧ t = (s.setEngine (freshEngine w)).respond .done := by
  unfold execInit windowFits
  split <;> simp_all [eq_comm]

/-- Everything `ADD` can do, when it completes. -/
theorem execAdd_next_iff (b : Byte) (s t : State) :
    execAdd b s = .next t ↔
      ∃ e e', s.engine = some e ∧ addEngine s.cfg.wcap.val s.rom e b = .ok e' ∧
        t = (s.setEngine e').respond (.word e'.hash) := by
  unfold execAdd
  cases he : s.engine with
  | none => simp
  | some e =>
    cases ha : addEngine s.cfg.wcap.val s.rom e b with
    | ok e' => simp [ha, eq_comm]
    | error f => simp [ha]

/-- Everything a completed command can do: the engine stays, is made fresh, or takes one byte; one result
is returned; nothing else changes. -/
theorem exec_cases (i : Instr) (s t : State) (h : exec i s = .next t) :
    (∃ v, t = s.respond (.word v)) ∨
    (∃ w : Half, w.toNat ≤ s.cfg.wcap.val ∧ t = (s.setEngine (freshEngine w)).respond .done) ∨
    (∃ b e e', s.engine = some e ∧ addEngine s.cfg.wcap.val s.rom e b = .ok e' ∧
      t = (s.setEngine e').respond (.word e'.hash)) := by
  cases i with
  | size w => exact .inl ⟨_, (Host.Outcome.next.inj h).symm⟩
  | init w => exact .inr (.inl ⟨w, (execInit_next_iff ..).1 h⟩)
  | add b =>
    obtain ⟨e, e', h⟩ := (execAdd_next_iff ..).1 h
    exact .inr (.inr ⟨b, e, e', h⟩)
  | tbl b => exact .inl ⟨_, (Host.Outcome.next.inj h).symm⟩

/-- Everything a step that answers a next state can do: idle, reset, or one command. -/
theorem step_cases (s t : State) (h : step s = .next t) :
    (s.input = [] ∧ t = s) ∨
    (∃ cut rest, s.input = .reset cut :: rest ∧ t = (s.setInput rest).hardReset) ∨
    (∃ w rest i, s.input = .command w :: rest ∧ decode w = .command i ∧
      exec i (s.setInput rest) = .next t) := by
  unfold step serveHost at h
  split at h
  · exact .inl ⟨‹_›, (Host.Outcome.next.inj h).symm⟩
  · exact .inr (.inl ⟨_, _, ‹_›, (Host.Outcome.next.inj h).symm⟩)
  · cases h
  · split at h
    · cases h
    · exact .inr (.inr ⟨_, _, _, ‹_›, ‹_›, h⟩)

/-- The memory of a state: the window of its engine, empty where there is none. -/
def State.memory (s : State) : Memory := (s.engine.map Engine.win).getD []

/-- The memory at reset has the canonical form. -/
theorem reset_memory_wf : Memory.wf State.reset.memory := nil_wf

/-- Every step keeps the memory's canonical form. -/
theorem step_memory_wf (s t : State) (h : step s = .next t) (hm : Memory.wf s.memory) :
    Memory.wf t.memory := by
  rcases step_cases s t h with ⟨-, rfl⟩ | ⟨cut, rest, -, rfl⟩ | ⟨w, rest, i, -, -, h⟩
  · exact hm
  · exact nil_wf
  · rcases exec_cases i _ t h with ⟨v, rfl⟩ | ⟨w, -, rfl⟩ | ⟨b, e, e', he, ha, rfl⟩
    · exact hm
    · exact nil_wf
    · have he : s.engine = some e := he
      simp only [State.memory, he, Option.map_some, Option.getD_some] at hm
      simpa [State.memory] using (addEngine_keeps _ _ _ _ _ ha).2 hm

end Sys2Proof.Machine
end

