-- ==== Sys2Proof/Laws/Runs.lean ====
section
/-! SUPPORT. The small lemmas of runs under a host. -/

namespace Sys2Proof.Machine

section Present
variable (s : State) (o : Option HostEvent)
@[simp] theorem present_engine : (s.present o).engine = s.engine := rfl
@[simp] theorem present_rom : (s.present o).rom = s.rom := rfl
@[simp] theorem present_cfg : (s.present o).cfg = s.cfg := rfl
@[simp] theorem present_input : (s.present o).input = s.input ++ o.toList := rfl
@[simp] theorem present_results : (s.present o).results = s.results := rfl

/-- A host that does nothing leaves the state. -/
@[simp] theorem present_none : s.present none = s := by simp [State.present, State.setInput]
end Present

section RunUnder
variable (h : HostBehaviour) (s : State)
@[simp] theorem runUnder_zero : runUnder h 0 s = .next s := rfl

/-- Everything a run of one step more can do, when it completes. -/
theorem runUnder_succ_next_iff (n : Nat) (t : State) :
    runUnder h (n + 1) s = .next t ↔
      ∃ u, runUnder h n s = .next u ∧ step (u.present (h n)) = .next t := by
  simp only [runUnder]
  cases runUnder h n s <;> simp
end RunUnder

/-- With nothing presented before and nothing now, the step idles. -/
theorem step_idle (s : State) (hs : s.input = []) : step (s.present none) = .next s := by
  simp [step, serveHost, hs]

end Sys2Proof.Machine
end

