-- ==== Sys2Proof/Laws/Instances.lean ====
section
/-! SUPPORT. The small lemmas of the product of instances. -/

namespace Sys2Proof.Machine

section WithRom
variable (o : Own) (rom : Vector Word 256)
@[simp] theorem withRom_engine : (o.withRom rom).engine = o.engine := rfl
@[simp] theorem withRom_rom : (o.withRom rom).rom = rom := rfl
@[simp] theorem withRom_cfg : (o.withRom rom).cfg = o.cfg := rfl
@[simp] theorem withRom_input : (o.withRom rom).input = o.input := rfl
@[simp] theorem withRom_results : (o.withRom rom).results = o.results := rfl
@[simp] theorem withRom_own : (o.withRom rom).own = o := rfl
end WithRom

/-- A state is what it owns together with its table. -/
theorem own_withRom (s : State) : s.own.withRom s.rom = s := rfl

section Advance
variable (rom : Vector Word 256)
@[simp] theorem advance_faulted (f : Fault) : Member.advance rom (.faulted f) = .faulted f := rfl
@[simp] theorem advance_refused (r : Refusal) : Member.advance rom (.refused r) = .refused r := rfl

/-- Everything one step of a running instance can do. -/
theorem advance_running (o : Own) :
    Member.advance rom (.running o) = memberAfter (step (o.withRom rom)) := rfl
end Advance

section StepAt
variable (k : Nat) (sys : System)
@[simp] theorem stepAt_rom : (System.stepAt k sys).rom = sys.rom := rfl
@[simp] theorem stepAt_length : (System.stepAt k sys).members.length = sys.members.length := by
  simp [System.stepAt]

/-- Everything a step of instance `k` does to the instances: it advances `k` and no other. -/
theorem stepAt_member (j : Nat) :
    (System.stepAt k sys).members[j]? =
      sys.members[j]?.map fun m => if k = j then m.advance sys.rom else m := by
  simp only [System.stepAt, List.getElem?_modify]
  cases sys.members[j]? <;> rfl
end StepAt

section Serve
variable (rom : Vector Word 256) (o : Option HostEvent)
@[simp] theorem serve_faulted (f : Fault) : Member.serve rom o (.faulted f) = .faulted f := rfl
@[simp] theorem serve_refused (r : Refusal) : Member.serve rom o (.refused r) = .refused r := rfl

/-- Everything one served step of a running instance can do. -/
theorem serve_running (own : Own) :
    Member.serve rom o (.running own) = memberAfter (step ((own.withRom rom).present o)) := rfl
end Serve

section SystemRunUnder
variable (h : Interleaving) (n : Nat) (sys : System)
@[simp] theorem system_runUnder_zero : System.runUnder h 0 sys = sys := rfl

@[simp] theorem system_runUnder_rom : (System.runUnder h n sys).rom = sys.rom := by
  induction n with
  | zero => rfl
  | succ n ih => simpa [System.runUnder] using ih

@[simp] theorem system_runUnder_length :
    (System.runUnder h n sys).members.length = sys.members.length := by
  induction n with
  | zero => rfl
  | succ n ih => simpa [System.runUnder] using ih

/-- Everything one moment more does to the instances: it serves the one that steps and no other. -/
theorem system_runUnder_member (j : Nat) :
    (System.runUnder h (n + 1) sys).members[j]? =
      (System.runUnder h n sys).members[j]?.map fun m =>
        if (h n).1 = j then m.serve sys.rom (h n).2 else m := by
  simp only [System.runUnder, List.getElem?_modify, system_runUnder_rom]
  cases (System.runUnder h n sys).members[j]? <;> rfl
end SystemRunUnder

end Sys2Proof.Machine
end

