-- ==== Sys2Proof/Laws/PerInstr.lean ====
section
/-! SUPPORT. Statements about every command as syntax, one lemma per constructor. -/

namespace Sys2Proof

/-- The fields of a concatenation (30_encoding.md R52). -/
theorem opField_cmdWord (op : BitVec 2) (arg : Half) : opField (cmdWord op arg) = op := by
  ext i hi
  simp [opField, cmdWord]
  grind

theorem argField_cmdWord (op : BitVec 2) (arg : Half) : argField (cmdWord op arg) = arg := by
  ext i hi
  simp [argField, cmdWord]
  grind

theorem byteField_eq (w : CmdWord) : byteField w = (argField w).extractLsb' 0 8 := by
  ext i hi
  simp [byteField, argField]

theorem highField_eq (w : CmdWord) : highField w = (argField w).extractLsb' 8 8 := by
  ext i hi
  simp [highField, argField]

/-- A byte operand widened to 16 bits keeps its low byte and has a zero high byte (R55). -/
theorem low_zeroExtend (b : Byte) : (b.zeroExtend 16).extractLsb' 0 8 = b := by
  ext i hi
  simp
  grind

theorem high_zeroExtend (b : Byte) : (b.zeroExtend 16).extractLsb' 8 8 = 0 := by
  ext i hi
  simp

namespace Laws.Fields

/-- The fields of a command's word are those its row of the opcode map gives (30_encoding.md R53 to
R55). -/
def Statement : Instr → Prop
  | .size w => opField (encode (.size w)) = 0b00 ∧ argField (encode (.size w)) = w
  | .init w => opField (encode (.init w)) = 0b01 ∧ argField (encode (.init w)) = w
  | .add b =>
    opField (encode (.add b)) = 0b10 ∧ highField (encode (.add b)) = 0 ∧ byteField (encode (.add b)) = b
  | .tbl b =>
    opField (encode (.tbl b)) = 0b11 ∧ highField (encode (.tbl b)) = 0 ∧ byteField (encode (.tbl b)) = b

theorem size (w : Half) : Statement (.size w) :=
  ⟨opField_cmdWord _ _, argField_cmdWord _ _⟩

theorem init (w : Half) : Statement (.init w) :=
  ⟨opField_cmdWord _ _, argField_cmdWord _ _⟩

theorem add (b : Byte) : Statement (.add b) := by
  refine ⟨opField_cmdWord _ _, ?_, ?_⟩
  · rw [highField_eq, encode, argField_cmdWord, high_zeroExtend]
  · rw [byteField_eq, encode, argField_cmdWord, low_zeroExtend]

theorem tbl (b : Byte) : Statement (.tbl b) := by
  refine ⟨opField_cmdWord _ _, ?_, ?_⟩
  · rw [highField_eq, encode, argField_cmdWord, high_zeroExtend]
  · rw [byteField_eq, encode, argField_cmdWord, low_zeroExtend]

end Laws.Fields

end Sys2Proof
end

