-- ==== Sys2Proof/Laws/Rotate.lean ====
section
/-! SUPPORT. The laws of `rotl32` that 45_properties.md R130 uses, and how the BuzHash of a string changes
at its two ends. -/

namespace Sys2Proof.Machine

/-- The rotation amount counts modulo 32 (00_scope.md R9). -/
theorem rotl32_mod (x : Word) (n : Nat) : rotl32 x (n % 32) = rotl32 x n := by
  simp [rotl32]

@[simp] theorem rotl32_zero_amount (x : Word) : rotl32 x 0 = x := by
  ext i hi
  simp [rotl32, BitVec.getElem_rotateLeft]

/-- Bit `i` of a rotate by `n`, seen from the result. -/
theorem getElem_rotl32 (x : Word) (n i : Nat) (h : i < 32) :
    (rotl32 x n)[i] = x[(i + (32 - n % 32)) % 32]'(Nat.mod_lt _ (by decide)) := by
  have hn := Nat.mod_lt n (show 0 < 32 by decide)
  simp only [rotl32, BitVec.getElem_rotateLeft]
  split
  · congr 1
    omega
  · congr 1
    omega

/-- Rotating distributes over exclusive or. -/
theorem rotl32_xor (x y : Word) (n : Nat) : rotl32 (x ^^^ y) n = rotl32 x n ^^^ rotl32 y n := by
  ext i hi
  simp [getElem_rotl32]

@[simp] theorem rotl32_zero (n : Nat) : rotl32 0#32 n = 0#32 := by
  ext i hi
  simp [getElem_rotl32]

/-- Two rotates add their amounts. -/
theorem rotl32_rotl32 (x : Word) (a b : Nat) : rotl32 (rotl32 x a) b = rotl32 x (a + b) := by
  ext i hi
  simp only [getElem_rotl32]
  congr 1
  omega

/-- One more byte at the end: every word ages by one place and the new word stands unrotated. -/
theorem buzHash_append_one (rom : Vector Word 256) (cs : List Byte) (b : Byte) :
    buzHash rom (cs ++ [b]) = rotl32 (buzHash rom cs) 1 ^^^ romRead rom b := by
  induction cs with
  | nil => simp [buzHash]
  | cons c cs ih =>
    simp only [List.cons_append, buzHash, ih, List.length_append, List.length_singleton, rotl32_xor,
      rotl32_rotl32, BitVec.xor_assoc]

/-- The first byte of a string leaves by an exclusive or with its word, rotated by its distance from the
end. -/
theorem buzHash_drop_first (rom : Vector Word 256) (c : Byte) (cs : List Byte) :
    buzHash rom (c :: cs) ^^^ rotl32 (romRead rom c) cs.length = buzHash rom cs := by
  rw [buzHash, BitVec.xor_comm, ← BitVec.xor_assoc, BitVec.xor_self, BitVec.zero_xor]

end Sys2Proof.Machine
end

