-- ==== Sys2Proof/Machine/Written.lean ====
section
/-! DEFINITION. Reading a written line: its spelling in characters (30_encoding.md R60, R61). How spaces
stand between the parts, and that a quoted `;` or `,` is a character like any other, the spec leaves open:
DESIGN CHOICE, safe, log 15. -/

namespace Sys2Proof

/-- A character of a line, with the role its quotes give it. -/
inductive Mark where
  /-- Outside all quotes. -/
  | plain (c : Char)
  /-- One character in single quotes (R60). -/
  | quoted (c : Char)
  /-- A double quote, and a character between two of them (R61). -/
  | quote
  | text (c : Char)
deriving DecidableEq, Repr

/-- The single and the double quote. -/
def apostrophe : Char := Char.ofNat 39
def doubleQuote : Char := Char.ofNat 34

/-- The roles of a line's characters; the flag says whether a double quote is open. -/
def marks : Bool → List Char → List Mark
  | _, [] => []
  | true, c :: cs => if c = doubleQuote then .quote :: marks false cs else .text c :: marks true cs
  | false, a :: c :: b :: cs =>
    if a = apostrophe ∧ b = apostrophe then .quoted c :: marks false cs
    else if a = doubleQuote then .quote :: marks true (c :: b :: cs)
    else .plain a :: marks false (c :: b :: cs)
  | false, c :: cs => if c = doubleQuote then .quote :: marks true cs else .plain c :: marks false cs

/-- Spaces taken off both ends. -/
def trim (ms : List Mark) : List Mark :=
  let front := ms.dropWhile (· = .plain ' ')
  (front.reverse.dropWhile (· = .plain ' ')).reverse

/-- The characters of a part that stands outside all quotes. -/
def plainChars : List Mark → Option (List Char)
  | [] => some []
  | .plain c :: ms => (plainChars ms).map (c :: ·)
  | .quoted _ :: _ => none
  | .quote :: _ => none
  | .text _ :: _ => none

/-- The value of a digit, in either case. -/
def digitValue (c : Char) : Option Nat :=
  if '0' ≤ c ∧ c ≤ '9' then some (c.toNat - 48)
  else if 'A' ≤ c ∧ c ≤ 'F' then some (c.toNat - 55)
  else if 'a' ≤ c ∧ c ≤ 'f' then some (c.toNat - 87)
  else none

/-- The number some digits spell, after `acc`. -/
def parseDigits (base : Nat) : List Char → Nat → Option Nat
  | [], acc => some acc
  | c :: cs, acc =>
    match digitValue c with
    | some d => if d < base then parseDigits base cs (acc * base + d) else none
    | none => none

/-- A decimal number, or a hexadecimal one with `0x` (R60). -/
def parseNumber : List Char → Option Nat
  | [] => none
  | '0' :: 'x' :: d :: ds => parseDigits 16 (d :: ds) 0
  | c :: cs => parseDigits 10 (c :: cs) 0

/-- An operand: one quoted character, or a number (R60). -/
def parseOperand (ms : List Mark) : Option Operand :=
  match ms with
  | [.quoted c] => some (.chr c)
  | _ => (plainChars ms).bind fun cs => (parseNumber cs).map .num

/-- The parts between plain commas. -/
def splitCommas : List Mark → List (List Mark)
  | [] => [[]]
  | m :: ms =>
    match splitCommas ms with
    | [] => []
    | part :: parts => if m = .plain ',' then [] :: part :: parts else (m :: part) :: parts

/-- All operands of a list, or nothing. -/
def parseOperands : List (List Mark) → Option (List Operand)
  | [] => some []
  | p :: ps =>
    match parseOperand (trim p) with
    | some o => (parseOperands ps).map (o :: ·)
    | none => none

/-- The characters up to a closing double quote that ends the line (R61). -/
def parseText : List Mark → Option (List Char)
  | [] => none
  | [.quote] => some []
  | .text c :: ms => (parseText ms).map (c :: ·)
  | .quote :: _ :: _ => none
  | .plain _ :: _ => none
  | .quoted _ :: _ => none

/-- The operands of `FEED`: a text, or a list (R61). -/
def parseFeed (ms : List Mark) : Option Line :=
  match ms with
  | .quote :: rest => (parseText rest).map .feedText
  | _ => (parseOperands (splitCommas ms)).map .feedBytes

/-- A line without its comment, which a plain `;` starts (R60). -/
def stripComment (ms : List Mark) : List Mark := ms.takeWhile (· ≠ .plain ';')

/-- The line some characters spell: its mnemonic and what follows; nothing where they spell none (R60). -/
def parseLine (cs : List Char) : Option Line :=
  let ms := trim (stripComment (marks false cs))
  let rest := trim (ms.dropWhile (· ≠ .plain ' '))
  match plainChars (ms.takeWhile (· ≠ .plain ' ')) with
  | some ['S', 'I', 'Z', 'E'] => (parseOperand rest).map .size
  | some ['I', 'N', 'I', 'T'] => (parseOperand rest).map .init
  | some ['A', 'D', 'D'] => (parseOperand rest).map .add
  | some ['T', 'B', 'L'] => (parseOperand rest).map .tbl
  | some ['F', 'E', 'E', 'D'] => parseFeed rest
  | _ => none

/-- The commands a written line spells: its operands in range, `FEED` expanded (R60, R61). -/
def assembleChars (cs : List Char) : Option (List Instr) := (parseLine cs).bind assemble

end Sys2Proof
end

