-- ==== Sys2Proof/Tests/Slice0.lean ====
section
/-! SUPPORT. Small tests, each one step on a small state, and for each statement of
Certificates/Slice0/Obligations.lean that has hypotheses a witness that meets them. Expected values come
from spec/95_test_vectors.md (its vectors' names stand in the docstrings) under its example table, and
from the tables of spec/30_encoding.md. -/

namespace Sys2Proof.Tests

open Sys2Proof Sys2Proof.Machine

/-- The example table of 95_test_vectors.md section 2 (that file's own, not the hardware's). -/
def exRom : Vector Word 256 := Vector.ofFn fun i => BitVec.ofNat 32 (0x9E3779B1 * (i.val + 1))

/-- A state with that table, header size 16, and the given capacity, engine and host events. -/
def exState (cap : Fin 65536) (e : Option Engine) (input : List HostEvent) : State :=
  { engine := e, rom := exRom, cfg := { hdrBytes := 16, wcap := cap }, input := input, results := [] }

/-- After `INIT 2; FEED "ab"`: a pending wrap (V-ADD-2). -/
def pendingAB : Engine :=
  { hash := 0x0D0D24F6, wsize := 2, pos := 2, filled := false, win := [(0, 0x61), (1, 0x62)] }

/-- After `INIT 2; FEED "abc"` (V-ADD-2). -/
def rolledABC : Engine :=
  { hash := 0x934397C2, wsize := 2, pos := 1, filled := true, win := [(0, 0x63), (1, 0x62)] }

/-- After `INIT 2; FEED "a"` (V-ADD-2). -/
def growingA : Engine :=
  { hash := 0x913C95C2, wsize := 2, pos := 1, filled := false, win := [(0, 0x61)] }

/-- After `INIT 0` (V-ADD-10). -/
def zeroSize : Engine := { hash := 0, wsize := 0, pos := 0, filled := false, win := [] }

/-- The engine after an outcome. -/
def engineOf (o : Host.Outcome State Fault Refusal) : Option Engine :=
  match o with
  | .next t => t.engine
  | .fault _ => none
  | .refused _ => none

/-- The results after an outcome. -/
def resultsOf (o : Host.Outcome State Fault Refusal) : List Result :=
  match o with
  | .next t => t.results
  | .fault _ => []
  | .refused _ => []

/-- The refusal of an outcome. -/
def refusalOf (o : Host.Outcome State Fault Refusal) : Option Refusal :=
  match o with
  | .next _ => none
  | .fault _ => none
  | .refused r => some r

/-! ### Decoding: words written out bit by bit from R52 and R53, one per command and the reserved ones -/

/-- `op = 00`, `arg = 0000000000001000`: `SIZE 8`. -/
theorem test_decode_size : decode 0b00_0000000000001000#18 = .command (.size 8) := by decide

/-- `op = 01`, `arg = 1111111111111111`: `INIT 65535`. -/
theorem test_decode_init : decode 0b01_1111111111111111#18 = .command (.init 65535) := by decide

/-- `op = 10`, `arg[15:8] = 0`, `b = 01000001`: `ADD 0x41`. -/
theorem test_decode_add : decode 0b10_00000000_01000001#18 = .command (.add 0x41) := by decide

/-- `op = 11`, `arg[15:8] = 0`, `b = 11111111`: `TBL 0xFF`. -/
theorem test_decode_tbl : decode 0b11_00000000_11111111#18 = .command (.tbl 0xFF) := by decide

/-- The lowest and the highest bit of `arg[15:8]` make a word reserved (section 6, 3.2). -/
theorem test_decode_reserved :
    decode 0x20100#18 = .reserved ∧ decode 0b10_10000000_00000000#18 = .reserved ∧
      decode 0x3FF41#18 = .reserved := by decide

/-- The same words through the numbering of opcode_table.json; a nineteenth bit spells nothing. -/
theorem test_decodeTableWord :
    decodeTableWord 18 0x20041 = some (.add 0x41) ∧ decodeTableWord 24 0x10003 = some (.init 3) ∧
      decodeTableWord 24 0x20100 = none ∧ decodeTableWord 24 0x40000 = none := by decide

/-- The words of 30_encoding.md section 6, from the encoder. -/
theorem test_encode :
    encode (.size 8) = 0x00008#18 ∧ encode (.init 1) = 0x10001#18 ∧ encode (.add 0xFF) = 0x200FF#18 ∧
      encode (.tbl 0x41) = 0x30041#18 := by decide

/-! ### Written lines: an ill-formed line for each check (R60, R61) -/

/-- `SIZE 70000` cannot be written (3.4), nor 65536, nor a quoted character as a window size. -/
theorem test_wf_half :
    Line.wf (.size (.num 70000)) = false ∧ Line.wf (.init (.num 65536)) = false ∧
      Line.wf (.size (.chr 'A')) = false ∧ Line.wf (.init (.num 65535)) = true := by decide

/-- A byte operand above 255, and a character that is not ASCII. -/
theorem test_wf_byte :
    Line.wf (.add (.num 256)) = false ∧ Line.wf (.tbl (.num 256)) = false ∧
      Line.wf (.add (.chr 'é')) = false ∧ Line.wf (.tbl (.num 255)) = true := by decide

/-- `FEED` with no byte, with a bad byte, and with a character that is not ASCII. -/
theorem test_wf_feed :
    Line.wf (.feedBytes []) = false ∧ Line.wf (.feedBytes [.num 1, .num 256]) = false ∧
      Line.wf (.feedText []) = false ∧ Line.wf (.feedText ['a', 'é']) = false := by decide

/-- `ADD 'A'` is `ADD 0x41`, and `FEED "ab"` is its two `ADD`s. -/
theorem test_assemble :
    assemble (.add (.chr 'A')) = some [.add 0x41] ∧
      assemble (.feedText ['a', 'b']) = some [.add 0x61, .add 0x62] := by decide

/-- R60: `ADD 'A'` and `ADD 0x41` with a comment, a decimal window size, and a line out of range. -/
theorem test_assembleChars :
    assembleChars ['A', 'D', 'D', ' ', apostrophe, 'A', apostrophe, ' ', ';', 'x'] = some [.add 0x41] ∧
      assembleChars ['A', 'D', 'D', ' ', '0', 'x', '4', '1'] = some [.add 0x41] ∧
      assembleChars ['I', 'N', 'I', 'T', ' ', '1', '0', '2', '4'] = some [.init 1024] ∧
      assembleChars ['S', 'I', 'Z', 'E', ' ', '7', '0', '0', '0', '0'] = none := by decide

/-- R61: `FEED 1, 0x02` and `FEED "ab"`. -/
theorem test_assembleChars_feed :
    assembleChars ['F', 'E', 'E', 'D', ' ', '1', ',', ' ', '0', 'x', '0', '2'] =
        some [.add 1, .add 2] ∧
      assembleChars ['F', 'E', 'E', 'D', ' ', doubleQuote, 'a', 'b', doubleQuote] =
        some [.add 0x61, .add 0x62] := by decide

/-! ### Operations -/

/-- The rows of 95_test_vectors.md section 3.1. -/
theorem test_rotl32 :
    rotl32 0x80000001 1 = 0x00000003 ∧ rotl32 0x80000001 31 = 0xC0000000 ∧
      rotl32 0x12345678 32 = 0x12345678 ∧ rotl32 0x00000001 33 = 0x00000002 ∧
      rotl32 0x12345678 4 = 0x23456781 := by decide

/-- A write between two slots, and over one of them. -/
theorem test_memory_write :
    Memory.write [(0, 1), (4, 2)] 2 9 = [(0, 1), (2, 9), (4, 2)] ∧
      Memory.write [(0, 1), (4, 2)] 4 9 = [(0, 1), (4, 9)] := by decide

/-! ### Commands -/

/-- `SIZE 65535` on an uninitialised engine (3.4): no wrap, still uninitialised. -/
theorem test_size :
    resultsOf (exec (.size 65535) (exState 1024 none [])) = [.word 65551] ∧
      engineOf (exec (.size 65535) (exState 1024 none [])) = none := by decide

/-- V-INIT-2: `INIT 2` on an engine that has rolled. -/
theorem test_init :
    engineOf (exec (.init 2) (exState 1024 (some rolledABC) [])) =
        some { hash := 0, wsize := 2, pos := 0, filled := false, win := [] } ∧
      resultsOf (exec (.init 2) (exState 1024 (some rolledABC) [])) = [.done] := by decide

/-- V-INIT-5 and V-INIT-6: the capacity is the bound, itself included. -/
theorem test_init_capacity :
    refusalOf (exec (.init 1025) (exState 1024 none [])) = some .windowTooLarge ∧
      refusalOf (exec (.init 1024) (exState 1024 none [])) = none := by decide

/-- V-TBL-1 and V-TBL-2: on an uninitialised engine, and in a stream, which it leaves as it was. -/
theorem test_tbl :
    resultsOf (exec (.tbl 0x41) (exState 1024 none [])) = [.word 0xCA4D5FA2] ∧
      engineOf (exec (.tbl 0x00) (exState 1024 (some pendingAB) [])) = some pendingAB := by
  decide +kernel

/-- V-ADD-2, the third `ADD`: the wrap, the eviction of slot 0 before it is overwritten, the insertion. -/
theorem test_add_wraps_and_evicts :
    engineOf (exec (.add 0x63) (exState 1024 (some pendingAB) [])) = some rolledABC ∧
      resultsOf (exec (.add 0x63) (exState 1024 (some pendingAB) [])) = [.word 0x934397C2] := by
  decide +kernel

/-- V-ADD-2, the second `ADD`: no eviction, the window fills, the wrap stays pending. -/
theorem test_add_fills :
    engineOf (exec (.add 0x62) (exState 1024 (some growingA) [])) = some pendingAB := by
  decide +kernel

/-! ### The step -/

/-- V-REF-1, V-REF-4, and the order of checks of R156: `Overlap` is asked before the word is read. -/
theorem test_step_refusals :
    refusalOf (step (exState 1024 none [.command 0x20041])) = some .notInitialised ∧
      refusalOf (step (exState 1024 (some pendingAB) [.command 0x20141])) = some .reservedEncoding ∧
      refusalOf (step (exState 1024 (some pendingAB) [.overlap 0x20141])) = some .overlap := by
  decide

/-- R180: a reset that cuts an `ADD` short leaves the engine uninitialised and returns nothing. -/
theorem test_step_reset :
    engineOf (step (exState 1024 (some pendingAB) [.reset (some 0x20063)])) = none ∧
      resultsOf (step (exState 1024 (some pendingAB) [.reset (some 0x20063)])) = [] ∧
      refusalOf (step (exState 1024 (some pendingAB) [.reset (some 0x20063)])) = none := by
  decide

/-- A placed word is the next command, even from reset, whose table and header size are open. -/
theorem test_withFetchWord :
    engineOf (step (State.reset.withFetchWord 24 0x10003)) =
        some { hash := 0, wsize := 3, pos := 0, filled := false, win := [] } ∧
      refusalOf (step (State.reset.withFetchWord 24 0x20000)) = some .notInitialised := by
  decide

/-! ### Witnesses: states and operands that meet the hypotheses of the statements -/

/-- The invariant holds of a pending wrap. -/
theorem witness_inv_pending : (exState 2 (some pendingAB) []).Inv := by
  intro e he
  obtain rfl : pendingAB = e := Option.some.inj he
  exact ⟨by decide, by decide, by decide, by decide, by decide +kernel⟩

/-- The invariant holds of a window that has rolled. -/
theorem witness_inv_rolled : (exState 1024 (some rolledABC) [.command 0x20061]).Inv := by
  intro e he
  obtain rfl : rolledABC = e := Option.some.inj he
  exact ⟨by decide, by decide, by decide, by decide, by decide +kernel⟩

/-- The invariant holds of a zero window. -/
theorem witness_inv_zero : (exState 0 (some zeroSize) []).Inv := by
  intro e he
  obtain rfl : zeroSize = e := Option.some.inj he
  exact ⟨by decide, by decide, by decide, by decide, by decide⟩

/-- AddCompletesAndSlides: an initialised engine under the invariant, a window of 2 and of 0. -/
theorem witness_AddCompletesAndSlides :
    ((exState 2 (some pendingAB) []).Inv ∧ (exState 2 (some pendingAB) []).engine = some pendingAB) ∧
      (exState 0 (some zeroSize) []).Inv ∧ (exState 0 (some zeroSize) []).engine = some zeroSize :=
  ⟨⟨witness_inv_pending, rfl⟩, witness_inv_zero, rfl⟩

/-- StepKeepsInvariant, NoFaultUnderInvariant, RomNeverWritten: a step of `ADD` under the invariant. -/
theorem witness_StepKeepsInvariant :
    (exState 1024 (some rolledABC) [.command 0x20061]).Inv ∧
      ∃ t, step (exState 1024 (some rolledABC) [.command 0x20061]) = .next t :=
  ⟨witness_inv_rolled, _, rfl⟩

/-- WrittenLinesAssemble: each clause at its boundary. -/
theorem witness_WrittenLinesAssemble :
    65535 < 65536 ∧ 65536 ≤ 65536 ∧ 255 < 256 ∧ 256 ≤ 256 ∧
      (Char.ofNat 127).toNat < 128 ∧ 128 ≤ (Char.ofNat 128).toNat := by decide

/-- FeedLinesAssemble: each clause at its boundary. -/
theorem witness_FeedLinesAssemble :
    ([0xFF] : List Byte) ≠ [] ∧
      ([Char.ofNat 127] ≠ [] ∧ ∀ c ∈ [Char.ofNat 127], c.toNat < 128) ∧
      (Operand.num 256 ∈ [Operand.num 1, Operand.num 256] ∧ 256 ≤ 256) ∧
      (Operand.chr (Char.ofNat 128) ∈ [Operand.chr (Char.ofNat 128)] ∧
        128 ≤ (Char.ofNat 128).toNat) ∧
      Char.ofNat 128 ∈ ['a', Char.ofNat 128] :=
  ⟨by simp, ⟨by simp, by simp⟩, ⟨by simp, le_rfl⟩, ⟨by simp, by simp⟩, by simp⟩

/-- StepRunsDecodedCommand. -/
theorem witness_StepRunsDecodedCommand :
    (exState 2 none [.command 0x30041, .reset none]).input = .command 0x30041 :: [.reset none] ∧
      decode 0x30041 = .command (.tbl 0x41) := by decide

/-- RefusalsExactly: the default capacity, at reset; and a state for each reason. -/
theorem witness_RefusalsExactly :
    State.reset.cfg.wcap.val = 65535 ∧
      refusalOf (step (exState 8 none [.command 0x10009])) = some .windowTooLarge := by
  decide

/-- IdleStepHoldsState and ResetAbandonsCommand (with and without a command cut short). -/
theorem witness_idle_and_reset :
    (exState 2 (some pendingAB) []).input = [] ∧
      (exState 2 (some pendingAB) [.reset none]).input = .reset none :: [] ∧
      (exState 2 (some pendingAB) [.reset (some 0x20061)]).input = .reset (some 0x20061) :: [] := by
  decide

/-- LegalWhileUninitialised and AddUninitialisedRefused; `INIT` at the capacity. -/
theorem witness_LegalWhileUninitialised :
    (exState 1024 none []).engine = none ∧
      (1024 : Half).toNat ≤ (exState 1024 none []).cfg.wcap.val := by decide

/-- InitMakesFreshEngine: both clauses at the boundary, and at capacity 0. -/
theorem witness_InitMakesFreshEngine :
    (1024 : Half).toNat ≤ (exState 1024 none []).cfg.wcap.val ∧
      (exState 1024 none []).cfg.wcap.val < (1025 : Half).toNat ∧
      (0 : Half).toNat ≤ (exState 0 none []).cfg.wcap.val := by decide

/-- SizeAndTblDoNotDisturb: a sequence with all four commands. -/
theorem witness_SizeAndTblDoNotDisturb :
    ∃ t, runCommands [.size 1, .init 1, .add 0x41, .tbl 0x41] (exState 1 none []) = .next t := ⟨_, rfl⟩

/-- AddZeroWindow. -/
theorem witness_AddZeroWindow :
    (exState 0 (some zeroSize) []).engine = some zeroSize ∧ zeroSize.wsize = 0 := by decide

/-- AddSixSteps where it evicts: the slot after the wrap is 0 and holds `old = 0x61`. -/
theorem witness_AddSixSteps_evicting :
    (exState 1 (some pendingAB) []).engine = some pendingAB ∧ pendingAB.wsize ≠ 0 ∧
      (if pendingAB.pos = pendingAB.wsize then (0 : Half) else pendingAB.pos).toNat <
        (exState 1 (some pendingAB) []).cfg.wcap.val ∧
      ((pendingAB.filled || decide (pendingAB.pos = pendingAB.wsize)) = true →
        Memory.read pendingAB.win
          (if pendingAB.pos = pendingAB.wsize then (0 : Half) else pendingAB.pos).toNat = some 0x61) := by
  decide

/-- AddSixSteps where it does not evict: the slot is the last one the capacity has. -/
theorem witness_AddSixSteps_growing :
    (exState 2 (some growingA) []).engine = some growingA ∧ growingA.wsize ≠ 0 ∧
      (if growingA.pos = growingA.wsize then (0 : Half) else growingA.pos).toNat <
        (exState 2 (some growingA) []).cfg.wcap.val ∧
      ((growingA.filled || decide (growingA.pos = growingA.wsize)) = true →
        Memory.read growingA.win
          (if growingA.pos = growingA.wsize then (0 : Half) else growingA.pos).toNat = some 0x00) := by
  decide

/-- AddFrame, AddFilledRule and CommandFrame: an `ADD` that completes, with its engines before and
after, in a window of 2 and in a zero window. -/
theorem witness_AddFrame :
    (∃ t e', exec (.add 0x63) (exState 2 (some pendingAB) []) = .next t ∧ t.engine = some e') ∧
      (∃ t e', exec (.add 0x63) (exState 0 (some zeroSize) []) = .next t ∧ t.engine = some e') ∧
      pendingAB.wsize ≠ 0 ∧ (1 : Nat) ≠ pendingAB.slot.toNat ∧ zeroSize.wsize = 0 :=
  ⟨⟨_, _, rfl, rfl⟩, ⟨_, _, rfl, rfl⟩, by decide, by decide, by decide⟩

/-- CommandFrame: its last clause, for `SIZE` and for `TBL`. -/
theorem witness_CommandFrame :
    (∃ t, exec (.size 7) (exState 2 (some pendingAB) []) = .next t) ∧
      ∃ t, exec (.tbl 7) (exState 2 (some pendingAB) []) = .next t := ⟨⟨_, rfl⟩, _, rfl⟩

/-- WindowSizeImmutable and InitialisedFromInitUntilReset: a step of `ADD`. -/
theorem witness_WindowSizeImmutable :
    (∃ t, step (exState 1024 (some rolledABC) [.command 0x20061]) = .next t) ∧
      (exState 1024 (some rolledABC) [.command 0x20061]).engine = some rolledABC ∧
      (∀ w rest x, (exState 1024 (some rolledABC) [.command 0x20061]).input = .command w :: rest →
        decode w ≠ .command (.init x)) ∧
      ∀ cut rest, (exState 1024 (some rolledABC) [.command 0x20061]).input ≠ .reset cut :: rest := by
  refine ⟨⟨_, rfl⟩, rfl, fun w rest x h => ?_, fun cut rest h => ?_⟩
  · cases h
    rw [show decode 0x20061 = .command (.add 0x61) by decide]
    simp
  · cases h

/-- InitialisedFromInitUntilReset: steps of `INIT` and of a reset. -/
theorem witness_InitialisedFromInitUntilReset :
    (∃ t, step (exState 8 none [.command 0x10008]) = .next t) ∧
      ∃ t, step (exState 8 (some zeroSize) [.reset none]) = .next t := ⟨⟨_, rfl⟩, _, rfl⟩

/-- WindowReadAfterWrite: another slot. RotateMovesBits: the bit that wraps. RotateArithmetic: both
clauses. -/
theorem witness_operations :
    (1 : Nat) ≠ 0 ∧ 31 < 32 ∧ 32 % 32 = 0 ∧ 33 % 32 ≠ 0 := by decide

/-- StreamClosedForm, StreamStoredState: windows of 0 and of the whole capacity; in a window of 2 with 3
bytes, slot 0 holds byte number 3 and slot 1 byte number 2; slot 2 is not written. -/
theorem witness_StreamStoredState :
    (0 : Half).toNat ≤ (exState 0 none []).cfg.wcap.val ∧
      (2 : Half).toNat ≤ (exState 2 none []).cfg.wcap.val ∧ (2 : Half) ≠ 0 ∧
      (0 < (2 : Half).toNat ∧ 2 < 3 ∧ 2 % (2 : Half).toNat = 0 ∧ 3 ≤ 2 + (2 : Half).toNat) ∧
      (1 < (2 : Half).toNat ∧ 1 < 3 ∧ 1 % (2 : Half).toNat = 1 ∧ 3 ≤ 1 + (2 : Half).toNat) ∧
      min 3 (2 : Half).toNat ≤ 2 := by decide

/-- StreamWindowOnly, StreamGrowingWindow: as many bytes as the window has slots, and none. -/
theorem witness_StreamWindowOnly :
    (2 : Half).toNat ≤ (exState 2 none []).cfg.wcap.val ∧
      (2 : Half).toNat ≤ ([0x61, 0x62] : List Byte).length ∧
      ([0x61, 0x62] : List Byte).length = (2 : Half).toNat ∧ (2 : Half).toNat ≤ (2 : Half).toNat ∧
      ([] : List Byte).length = (0 : Half).toNat ∧ (0 : Half).toNat ≤ (2 : Half).toNat := by
  decide

/-- StreamDeterminism: two states with the same table and configuration, one with a past. -/
theorem witness_StreamDeterminism :
    (exState 2 (some rolledABC) [.reset none]).rom = (exState 2 none []).rom ∧
      (exState 2 (some rolledABC) [.reset none]).cfg = (exState 2 none []).cfg ∧
      ∃ t, runStream 2 [0x61] (exState 2 none []) = .next t := ⟨rfl, rfl, _, rfl⟩

/-- OrderSensitivityCondition, OneByteScenario, PeriodThirtyTwoCancels: the least capacities, and a
block. -/
theorem witness_capacities :
    2 ≤ (exState 2 none []).cfg.wcap.val ∧ 1 ≤ (exState 1 none []).cfg.wcap.val ∧
      64 ≤ (exState 64 none []).cfg.wcap.val ∧ (List.replicate 32 (0x41 : Byte)).length = 32 := by
  decide

/-- SubstringFound: the phrase "hello" of program P3. RollingRecurrence: a window filling and a full
one. -/
theorem witness_SubstringFound :
    (5 : Half).toNat ≤ (exState 5 none []).cfg.wcap.val ∧
      ([0x68, 0x65, 0x6C, 0x6C, 0x6F] : List Byte).length = (5 : Half).toNat ∧ 1 ≤ (5 : Half).toNat ∧
      ([0x68] : List Byte).length < (2 : Half).toNat ∧
      (2 : Half).toNat ≤ ([0x68, 0x65] : List Byte).length ∧
      ([0x68, 0x65] : List Byte)[([0x68, 0x65] : List Byte).length - (2 : Half).toNat]? = some 0x68 := by
  decide

/-- Three instances: an uninitialised one that will be given `INIT 2`, one that will be given the `ADD`
that fills its window, and an uninitialised one that will be refused its `ADD`. -/
def exSystem : System :=
  { rom := exRom
    members :=
      [.running (exState 2 none [.command 0x10002]).own,
        .running (exState 2 (some growingA) [.command 0x20062]).own,
        .running (exState 2 none [.command 0x20062]).own] }

/-- R160: the refusal of one instance stops neither of the others, and each gets the result it would have
alone (V-REF-1, V-INIT-1, V-ADD-2). -/
theorem test_system_run :
    (System.run [2, 1, 0] exSystem).members =
      [.running { (exState 2 (some (freshEngine 2)) []).own with results := [.done] },
        .running { (exState 2 (some pendingAB) []).own with results := [.word 0x0D0D24F6] },
        .refused .notInitialised] := by
  decide +kernel

/-- InstancesIndependent: a running instance that alone completes its share, one that alone is refused,
and two that have stopped. -/
theorem witness_InstancesIndependent :
    (∃ o, exSystem.members[1]? = some (.running o) ∧
      ∃ t, Host.Core.run core ([2, 1, 0].count 1) (o.withRom exSystem.rom) = .next t) ∧
    (∃ o, exSystem.members[2]? = some (.running o) ∧
      Host.Core.run core ([2, 1, 0].count 2) (o.withRom exSystem.rom) = .refused .notInitialised) ∧
    ({ rom := exRom, members := [.faulted .noSuchSlot, .refused .overlap] } : System).members[0]? =
      some (.faulted .noSuchSlot) ∧
    ({ rom := exRom, members := [.faulted .noSuchSlot, .refused .overlap] } : System).members[1]? =
      some (.refused .overlap) :=
  ⟨⟨_, rfl, _, rfl⟩, ⟨_, rfl, rfl⟩, rfl, rfl⟩

/-- InstancesIndependent: a running instance that alone faults (its state is one no run reaches: a full
window whose slot 0 holds no value). -/
theorem witness_InstancesIndependent_fault :
    ∃ o, ({ rom := exRom, members := [.running (exState 2 (some { growingA with pos := 2, win := [] })
        [.command 0x20062]).own] } : System).members[0]? = some (.running o) ∧
      Host.Core.run core ([0].count 0) (o.withRom exRom) = .fault .unwrittenSlot := ⟨_, rfl, rfl⟩

/-- SystemCompletesSchedule: two instances of one table, each of which alone completes its one step. -/
theorem witness_SystemCompletesSchedule :
    ∃ t u : State,
      [exState 2 none [.command 0x10002], exState 2 (some growingA) [.command 0x20062]].length =
        [t, u].length ∧
      (∀ s ∈ [exState 2 none [.command 0x10002], exState 2 (some growingA) [.command 0x20062]],
        s.rom = exRom) ∧
      ∀ (j : Nat) (s f : State),
        [exState 2 none [.command 0x10002], exState 2 (some growingA) [.command 0x20062]][j]? = some s →
        [t, u][j]? = some f → Host.Core.run core ([1, 0].count j) s = .next f := by
  obtain ⟨t, ht⟩ : ∃ t : State,
      Host.Core.run core ([1, 0].count 0) (exState 2 none [.command 0x10002]) = .next t := ⟨_, rfl⟩
  obtain ⟨u, hu⟩ : ∃ u : State,
      Host.Core.run core ([1, 0].count 1) (exState 2 (some growingA) [.command 0x20062]) = .next u :=
    ⟨_, rfl⟩
  refine ⟨t, u, rfl, fun s hs => ?_, fun j s f hs hf => ?_⟩
  · simp only [List.mem_cons, List.not_mem_nil, or_false] at hs
    rcases hs with rfl | rfl <;> rfl
  · match j with
    | 0 => cases hs; cases hf; exact ht
    | 1 => cases hs; cases hf; exact hu
    | _ + 2 => cases hs

/-- R8: a step under a host that acts only then (V-INIT-1). -/
theorem test_runUnder :
    runUnder (fun _ => some (.command 0x10002)) 1 (exState 2 none []) =
      .next { exState 2 (some (freshEngine 2)) [] with results := [.done] } := rfl

/-- RunsKeepInvariant: under a host that never does anything the reset state stays. -/
theorem witness_IsRunFromReset : IsRunFromReset (fun _ => none) fun _ => State.reset :=
  ⟨rfl, fun _ => rfl⟩

/-- EndlessStreamRuns: a window of 0, and one of the whole capacity. -/
theorem witness_EndlessStreamRuns :
    (0 : Half).toNat ≤ (exState 0 none []).cfg.wcap.val ∧
      (2 : Half).toNat ≤ (exState 2 (some rolledABC) []).cfg.wcap.val ∧
      (exState 0 none []).input = [] ∧ (exState 2 (some rolledABC) []).input = [] := by decide

/-- EndlessInterleavingIndependent: two instances that have stopped, and one with nothing presented. -/
theorem witness_EndlessInterleavingIndependent :
    let sys : System :=
      { rom := exRom
        members := [.faulted .noSuchSlot, .refused .overlap, .running (exState 2 none []).own] }
    sys.members[0]? = some (.faulted .noSuchSlot) ∧ sys.members[1]? = some (.refused .overlap) ∧
      ∃ o, sys.members[2]? = some (.running o) ∧ o.input = [] := ⟨rfl, rfl, _, rfl, rfl⟩

end Sys2Proof.Tests
end

/-! ## The decoder reads back what the encoder writes -/

namespace Sys2Proof

/-- The fields of a command's word are those its row gives, so decoding gives the command back
(30_encoding.md R53). -/
theorem decode_encode (i : Instr) : decode (encode i) = .command i := by
  cases i with
  | size w =>
    obtain ⟨hop, harg⟩ := Laws.Fields.size w
    simp [decode, hop, harg]
  | init w =>
    obtain ⟨hop, harg⟩ := Laws.Fields.init w
    simp [decode, hop, harg]
  | add b =>
    obtain ⟨hop, hhigh, hbyte⟩ := Laws.Fields.add b
    simp [decode, decodeByte, hop, hhigh, hbyte]
  | tbl b =>
    obtain ⟨hop, hhigh, hbyte⟩ := Laws.Fields.tbl b
    simp [decode, decodeByte, hop, hhigh, hbyte]

end Sys2Proof

/-! ## Outcomes, steps and runs: the rules the runs under a host rest on -/

namespace Sys2Proof.Machine

section Outcomes

/-- An outcome followed by what is done with its state: a fault or a refusal ends both. -/
def andThen (o : Host.Outcome State Fault Refusal) (k : State → Host.Outcome State Fault Refusal) :
    Host.Outcome State Fault Refusal :=
  match o with
  | .next t => k t
  | .fault f => .fault f
  | .refused r => .refused r

@[simp] theorem andThen_next (t : State) (k : State → Host.Outcome State Fault Refusal) :
    andThen (.next t) k = k t := rfl

@[simp] theorem andThen_fault (f : Fault) (k : State → Host.Outcome State Fault Refusal) :
    andThen (.fault f) k = .fault f := rfl

@[simp] theorem andThen_refused (r : Refusal) (k : State → Host.Outcome State Fault Refusal) :
    andThen (.refused r) k = .refused r := rfl

variable (o : Host.Outcome State Fault Refusal) (k l : State → Host.Outcome State Fault Refusal)

theorem andThen_assoc : andThen (andThen o k) l = andThen o fun t => andThen (k t) l := by
  cases o <;> rfl

theorem andThen_next_right : andThen o .next = o := by
  cases o <;> rfl

/-- What follows an outcome matters only at the state the outcome has. -/
theorem andThen_congr (h : ∀ t, o = .next t → k t = l t) : andThen o k = andThen o l := by
  cases o with
  | next t => exact h t rfl
  | fault f => rfl
  | refused r => rfl

theorem runUnder_succ (h : HostBehaviour) (n : Nat) (s : State) :
    runUnder h (n + 1) s = andThen (runUnder h n s) fun t => step (t.present (h n)) := rfl

end Outcomes

section CoreRun

/-- The finite run of the machine, with its types written as the model's own. -/
def coreRun (n : Nat) (s : State) : Host.Outcome State Fault Refusal := Host.Core.run core n s

@[simp] theorem coreRun_zero (s : State) : coreRun 0 s = .next s := rfl

theorem coreRun_succ (n : Nat) (s : State) : coreRun (n + 1) s = andThen (step s) (coreRun n) := by
  have hstep : core.step s = step s := rfl
  simp only [coreRun, Host.Core.run, hstep]
  cases step s <;> rfl

end CoreRun

section SetInputLaws
variable (s : State)
@[simp] theorem setInput_setInput (es fs : List HostEvent) :
    (s.setInput es).setInput fs = s.setInput fs := rfl
@[simp] theorem setEngine_setInput (es : List HostEvent) (e : Engine) :
    (s.setInput es).setEngine e = (s.setEngine e).setInput es := rfl
@[simp] theorem respond_setInput (es : List HostEvent) (r : Result) :
    (s.setInput es).respond r = (s.respond r).setInput es := rfl

theorem setInput_eq_self {es : List HostEvent} (h : s.input = es) : s.setInput es = s := by
  subst h
  rfl

/-- With nothing presented before, what the host presents now is all that is presented. -/
theorem present_some_of_input_nil (h : s.input = []) (x : HostEvent) :
    s.present (some x) = s.setInput [x] := by
  simp [State.present, h]
end SetInputLaws

section Frame

/-- A completed command leaves the table, the configuration and the host's later events
(30_encoding.md R50, 20_memory.md R36). -/
theorem exec_frame (i : Instr) (s t : State) (h : exec i s = .next t) :
    t.rom = s.rom ∧ t.cfg = s.cfg ∧ t.input = s.input := by
  rcases exec_cases i s t h with ⟨v, rfl⟩ | ⟨w, -, rfl⟩ | ⟨b, e, e', -, -, rfl⟩ <;> simp

/-- No command sees what the host will present later (30_encoding.md R50). -/
theorem exec_setInput (i : Instr) (s : State) (es : List HostEvent) :
    exec i (s.setInput es) = andThen (exec i s) fun t => .next (t.setInput es) := by
  cases i with
  | size w => rfl
  | tbl b => rfl
  | init w => cases hw : windowFits s.cfg w <;> simp [exec, execInit, hw]
  | add b =>
    cases he : s.engine with
    | none => simp [exec, execAdd, he]
    | some e => cases ha : addEngine s.cfg.wcap.val s.rom e b <;> simp [exec, execAdd, he, ha]

/-- A step serves the first event alone; the later ones only wait. -/
theorem step_setInput_cons (s : State) (x : HostEvent) (es : List HostEvent) :
    step (s.setInput (x :: es)) =
      andThen (step (s.setInput [x])) fun t => .next (t.setInput es) := by
  cases x with
  | reset cut => rfl
  | overlap w => rfl
  | command w =>
    cases hd : decode w with
    | reserved => simp [step, serveHost, hd]
    | command i =>
      simpa [step, serveHost, hd] using exec_setInput i (s.setInput []) es

/-- No step writes the table or the configuration (20_memory.md R36). -/
theorem step_rom_cfg (s t : State) (h : step s = .next t) : t.rom = s.rom ∧ t.cfg = s.cfg := by
  rcases step_cases s t h with ⟨-, rfl⟩ | ⟨cut, rest, -, rfl⟩ | ⟨w, rest, i, -, -, h⟩
  · exact ⟨rfl, rfl⟩
  · exact ⟨rfl, rfl⟩
  · obtain ⟨hrom, hcfg, -⟩ := exec_frame i _ t h
    exact ⟨hrom, hcfg⟩

/-- A step takes one event. -/
theorem step_input (s t : State) (h : step s = .next t) : t.input = s.input.tail := by
  rcases step_cases s t h with ⟨hs, rfl⟩ | ⟨cut, rest, hs, rfl⟩ | ⟨w, rest, i, hs, -, h⟩
  · simp [hs]
  · simp [hs]
  · simp [hs, (exec_frame i _ t h).2.2]

end Frame

section RunFrame
variable (h : HostBehaviour) (s : State)

theorem runUnder_rom (n : Nat) (t : State) (ht : runUnder h n s = .next t) : t.rom = s.rom := by
  induction n generalizing t with
  | zero => cases ht; rfl
  | succ n ih =>
    obtain ⟨u, hu, hstep⟩ := (runUnder_succ_next_iff h s n t).1 ht
    rw [(step_rom_cfg _ _ hstep).1, present_rom, ih u hu]

/-- A host that acts before each step leaves nothing presented after it. -/
theorem runUnder_input_nil (hs : s.input = []) (n : Nat) (t : State)
    (ht : runUnder h n s = .next t) : t.input = [] := by
  induction n generalizing t with
  | zero => cases ht; exact hs
  | succ n ih =>
    obtain ⟨u, hu, hstep⟩ := (runUnder_succ_next_iff h s n t).1 ht
    rw [step_input _ _ hstep, present_input, ih u hu]
    cases h n <;> rfl

/-- A moment at which the host pauses changes no outcome (60_exceptions.md R162). -/
theorem runUnder_succ_of_pause (hs : s.input = []) (n : Nat) (hn : h n = none) :
    runUnder h (n + 1) s = runUnder h n s :=
  calc runUnder h (n + 1) s
      = andThen (runUnder h n s) .next := by
        rw [runUnder_succ, hn]
        exact andThen_congr _ _ _ fun t ht => step_idle t (runUnder_input_nil h s hs n t ht)
    _ = runUnder h n s := andThen_next_right _

/-- A moment at which the host acts serves that event alone. -/
theorem runUnder_succ_of_event (hs : s.input = []) (n : Nat) (x : HostEvent) (hn : h n = some x) :
    runUnder h (n + 1) s = andThen (runUnder h n s) fun t => step (t.setInput [x]) := by
  rw [runUnder_succ, hn]
  exact andThen_congr _ _ _ fun t ht => by
    rw [present_some_of_input_nil t (runUnder_input_nil h s hs n t ht)]

end RunFrame

/-! ### The first moments of a host are a finite run -/

/-- One event more at the end of the list is one step more at the end of the run. -/
theorem coreRun_concat (s : State) (es : List HostEvent) (x : HostEvent) :
    coreRun (es.length + 1) (s.setInput (es ++ [x])) =
      andThen (coreRun es.length (s.setInput es)) fun t => step (t.setInput [x]) := by
  induction es generalizing s with
  | nil =>
    simp only [List.nil_append, List.length_nil, coreRun_succ, coreRun_zero, andThen_next]
    exact andThen_next_right _
  | cons y es ih =>
    rw [List.cons_append, List.length_cons, coreRun_succ, coreRun_succ,
      step_setInput_cons s y (es ++ [x]), step_setInput_cons s y es]
    simp only [andThen_assoc, andThen_next, ih]

/-- The first moments of a host, run as the finite list of its events. -/
theorem runUnder_eq_coreRun (h : HostBehaviour) (n : Nat) (s : State) :
    runUnder h n (s.setInput []) =
      coreRun ((List.range n).filterMap h).length
        (s.setInput ((List.range n).filterMap h)) := by
  induction n with
  | zero => rfl
  | succ n ih =>
    rw [List.range_succ, List.filterMap_append]
    cases hn : h n with
    | none =>
      rw [runUnder_succ_of_pause h _ rfl n hn, ih]
      simp [hn]
    | some x =>
      rw [runUnder_succ_of_event h _ rfl n x hn, ih, ← coreRun_concat]
      simp [hn]

/-! ### Endless runs -/

section Endless
variable (h : HostBehaviour) (s : State)

/-- A sequence of states is an endless run exactly when its first `n` moments come to state `n`. -/
theorem isRun_iff_runUnder (states : Nat → State) :
    (states 0 = s ∧ IsRun h states) ↔ ∀ n, runUnder h n s = .next (states n) := by
  constructor
  · rintro ⟨h0, hrun⟩ n
    induction n with
    | zero => rw [runUnder_zero, h0]
    | succ n ih => rw [runUnder_succ, ih, andThen_next, hrun n]
  · intro hall
    refine ⟨(Host.Outcome.next.inj (hall 0)).symm, fun n => ?_⟩
    have hsucc := hall (n + 1)
    rwa [runUnder_succ, hall n, andThen_next] at hsucc

/-- There is an endless run exactly when all its prefixes complete. -/
theorem prefixes_complete_iff_exists_isRun :
    (∀ n, ∃ t, runUnder h n s = .next t) ↔ ∃ states : Nat → State, states 0 = s ∧ IsRun h states := by
  simp only [isRun_iff_runUnder]
  exact Classical.skolem

end Endless

/-! ### Interleavings -/

/-- One served step of a member is one moment of its own host. -/
theorem serve_memberAfter (rom : Vector Word 256) (a : Option HostEvent)
    (o : Host.Outcome State Fault Refusal) (hrom : ∀ t, o = .next t → t.rom = rom) :
    Member.serve rom a (memberAfter o) = memberAfter (andThen o fun t => step (t.present a)) := by
  cases o with
  | next t =>
    obtain rfl := hrom t rfl
    rfl
  | fault f => rfl
  | refused r => rfl

section Interleaved
variable (h : Interleaving) (sys : System) (j : Nat)

/-- A member comes to what its own host alone gives it. -/
theorem system_runUnder_running (o : Own) (hj : sys.members[j]? = some (.running o))
    (ho : o.input = []) (n : Nat) :
    (System.runUnder h n sys).members[j]? =
      some (memberAfter (runUnder (h.hostOf j) n (o.withRom sys.rom))) := by
  induction n with
  | zero => exact hj
  | succ n ih =>
    rw [system_runUnder_member, ih, Option.map_some]
    by_cases hmoves : (h n).1 = j
    · have hact : h.hostOf j n = (h n).2 := if_pos hmoves
      rw [if_pos hmoves, runUnder_succ, hact,
        serve_memberAfter sys.rom _ _ fun t ht => runUnder_rom _ _ n t ht]
    · have hpause : h.hostOf j n = none := if_neg hmoves
      rw [if_neg hmoves, runUnder_succ_of_pause _ _ ho n hpause]

/-- A member that no served step changes, a stopped one, stays as it is. -/
theorem system_runUnder_stopped (m : Member) (hj : sys.members[j]? = some m)
    (hstop : ∀ a, Member.serve sys.rom a m = m) (n : Nat) :
    (System.runUnder h n sys).members[j]? = some m := by
  induction n with
  | zero => exact hj
  | succ n ih => simp [system_runUnder_member, ih, hstop]

end Interleaved

end Sys2Proof.Machine

/-! ## The window under `ADD`: the invariant is kept and the window slides -/

namespace Sys2Proof.Machine

section LastBytes

theorem lastBytes_of_length_le (n : Nat) (bs : List Byte) (h : bs.length ≤ n) :
    lastBytes n bs = bs := by
  simp [lastBytes, Nat.sub_eq_zero_of_le h]

theorem lastBytes_zero (bs : List Byte) : lastBytes 0 bs = [] := by
  simp [lastBytes]

/-- Of one byte more than fit, the first leaves. -/
theorem lastBytes_cons_of_length_eq (n : Nat) (c : Byte) (bs : List Byte) (h : bs.length = n) :
    lastBytes n (c :: bs) = bs := by
  simp [lastBytes, h]

/-- A byte added to the last `n` bytes gives the last `n` of all of them. -/
theorem lastBytes_lastBytes_append (n : Nat) (bs : List Byte) (b : Byte) :
    lastBytes n (lastBytes n bs ++ [b]) = lastBytes n (bs ++ [b]) := by
  by_cases h : bs.length ≤ n
  · rw [lastBytes_of_length_le n bs h]
  · have hdrop : lastBytes n bs ++ [b] = (bs ++ [b]).drop (bs.length - n) := by
      rw [lastBytes, List.drop_append_of_le_length (by omega)]
    rw [hdrop, lastBytes, lastBytes, List.drop_drop, List.length_drop]
    congr 1
    simp only [List.length_append, List.length_singleton]
    omega

end LastBytes

section Windows
variable {cap : Nat} {rom : Vector Word 256} {e : Engine}

theorem full_eq_false_iff (e : Engine) : e.full = false ↔ e.filled = false ∧ e.pos ≠ e.wsize := by
  simp [Engine.full]

theorem full_eq_true_iff (e : Engine) : e.full = true ↔ e.filled = true ∨ e.pos = e.wsize := by
  simp [Engine.full]

/-- Under the invariant the window has a byte for each slot written. -/
theorem Engine.Inv.length_win (hi : e.Inv cap rom) :
    (e.win.map Prod.snd).length = slotsWritten e := by
  have hlen := congrArg List.length hi.written
  simpa using hlen

/-- The window holds as many bytes as slots have been written. -/
theorem Engine.Inv.length_windowBytes (hi : e.Inv cap rom) :
    (windowBytes e).length = slotsWritten e := by
  rw [windowBytes, List.length_append, Nat.add_comm, ← List.length_append, List.take_append_drop,
    hi.length_win]

/-- Where `pos` stands after the last byte, the window's bytes are those of the slots, in order. -/
theorem windowBytes_of_length_eq (h : (e.win.map Prod.snd).length = e.pos.toNat) :
    windowBytes e = e.win.map Prod.snd := by
  rw [windowBytes, List.drop_of_length_le h.le, List.take_of_length_le h.le, List.nil_append]

/-- A full window has all its slots written (10_state.md R20, R21). -/
theorem slotsWritten_of_full (hf : e.full = true) : slotsWritten e = e.wsize.toNat := by
  rcases (full_eq_true_iff e).1 hf with hfilled | hpos
  · simp [slotsWritten, hfilled]
  · simp [slotsWritten, hpos]

/-- Before the window is full the slots written are those below the next one. -/
theorem slotsWritten_of_not_full (hf : e.full = false) : slotsWritten e = e.slot.toNat := by
  obtain ⟨hfilled, hpos⟩ := (full_eq_false_iff e).1 hf
  simp [slotsWritten, hfilled, slot_eq, hpos]

/-- The slot of the next `ADD` is one of the window's (20_memory.md R33). -/
theorem Engine.Inv.slot_lt (hi : e.Inv cap rom) (hw : e.wsize ≠ 0) :
    e.slot.toNat < e.wsize.toNat := by
  have hle := hi.posLe
  rw [slot_eq]
  split
  · bv_omega
  · bv_omega

/-- The position after an `ADD` does not overflow: it stays within `wsize`. -/
theorem Engine.Inv.slot_succ (hi : e.Inv cap rom) (hw : e.wsize ≠ 0) :
    (e.slot + 1).toNat = e.slot.toNat + 1 := by
  have hlt := hi.slot_lt hw
  bv_omega

/-- A fresh engine meets the invariant (41_sizing_and_init.md R82). -/
theorem freshEngine_inv (w : Half) (rom : Vector Word 256) (h : w.toNat ≤ cap) :
    (freshEngine w).Inv cap rom where
  fits := h
  posLe := Nat.zero_le _
  posPos := fun hf => by cases hf
  written := rfl
  hashed := rfl

theorem windowBytes_freshEngine (w : Half) : windowBytes (freshEngine w) = [] := rfl

/-- Before the window is full its bytes are those of the slots, in order. -/
theorem Engine.Inv.windowBytes_of_not_full (hi : e.Inv cap rom) (hf : e.full = false) :
    windowBytes e = e.win.map Prod.snd := by
  obtain ⟨hfilled, -⟩ := (full_eq_false_iff e).1 hf
  exact windowBytes_of_length_eq (by simpa [slotsWritten, hfilled] using hi.length_win)

/-- In a full window the oldest byte is that of the slot the next `ADD` writes (10_state.md R21). -/
theorem Engine.Inv.windowBytes_of_full (hi : e.Inv cap rom) (hf : e.full = true) :
    windowBytes e =
      (e.win.map Prod.snd).drop e.slot.toNat ++ (e.win.map Prod.snd).take e.slot.toNat := by
  rw [slot_eq]
  split <;> rename_i hpos
  · have hlen : (e.win.map Prod.snd).length = e.pos.toNat := by
      rw [hi.length_win, slotsWritten_of_full hf, hpos]
    simp [windowBytes_of_length_eq hlen]
  · rfl

end Windows

section ZeroWindow
variable {cap : Nat} {rom : Vector Word 256} {e : Engine}

/-- A zero window holds no byte. -/
theorem Engine.Inv.win_of_zero (hi : e.Inv cap rom) (hw : e.wsize = 0) : e.win = [] := by
  have hpos : e.pos.toNat = 0 := by simpa [hw] using hi.posLe
  have hzero : slotsWritten e = 0 := by simp [slotsWritten, hw, hpos]
  simpa [hzero] using hi.written

theorem windowBytes_of_win_nil (hw : e.win = []) : windowBytes e = [] := by
  simp [windowBytes, hw]

theorem Engine.Inv.windowBytes_zeroWindow (hi : e.Inv cap rom) (hw : e.wsize = 0) :
    windowBytes (zeroWindow e) = [] :=
  windowBytes_of_win_nil (hi.win_of_zero hw)

/-- `ADD` on a zero window keeps the invariant (42_add_byte.md R108). -/
theorem Engine.Inv.after_zeroWindow (hi : e.Inv cap rom) (hw : e.wsize = 0) :
    (zeroWindow e).Inv cap rom where
  fits := hi.fits
  posLe := Nat.zero_le _
  posPos := fun _ h => absurd hw h
  written := by simp [slotsWritten, hw, hi.win_of_zero hw]
  hashed := by
    rw [hi.windowBytes_zeroWindow hw]
    rfl

end ZeroWindow

section Grow
variable {cap : Nat} {rom : Vector Word 256} {e : Engine} (b : Byte)

/-- An `ADD` to a window that is not full writes the first unwritten slot. -/
theorem Engine.Inv.growEngine_win (hi : e.Inv cap rom) (hf : e.full = false) :
    (growEngine rom e b).win = e.win ++ [(e.slot.toNat, b)] :=
  write_append e.win e.slot.toNat b (slotsWritten_of_not_full hf ▸ hi.written)

/-- The window grows by the new byte. -/
theorem Engine.Inv.windowBytes_growEngine (hi : e.Inv cap rom) (hw : e.wsize ≠ 0)
    (hf : e.full = false) : windowBytes (growEngine rom e b) = windowBytes e ++ [b] := by
  have hsnd : (growEngine rom e b).win.map Prod.snd = e.win.map Prod.snd ++ [b] := by
    simp [hi.growEngine_win b hf]
  have hlen : ((growEngine rom e b).win.map Prod.snd).length = (growEngine rom e b).pos.toNat := by
    rw [hsnd, List.length_append, hi.length_win, slotsWritten_of_not_full hf]
    exact (hi.slot_succ hw).symm
  rw [windowBytes_of_length_eq hlen, hsnd, hi.windowBytes_of_not_full hf]

/-- An `ADD` to a window that is not full keeps the invariant. -/
theorem Engine.Inv.after_growEngine (hi : e.Inv cap rom) (hw : e.wsize ≠ 0) (hf : e.full = false) :
    (growEngine rom e b).Inv cap rom where
  fits := hi.fits
  posLe := (hi.slot_succ hw).trans_le (hi.slot_lt hw)
  posPos := fun h => by cases h
  written := by
    have hslots : slotsWritten (growEngine rom e b) = e.slot.toNat + 1 := hi.slot_succ hw
    rw [hi.growEngine_win b hf, hslots, List.map_append, hi.written, slotsWritten_of_not_full hf,
      List.range_succ]
    rfl
  hashed := by
    rw [hi.windowBytes_growEngine b hw hf, buzHash_append_one, ← hi.hashed]
    rfl

end Grow

/-- One byte in at the end and one out at the front (45_properties.md R142). -/
theorem buzHash_slide (rom : Vector Word 256) (old b : Byte) (cs : List Byte) :
    buzHash rom (cs ++ [b]) =
      rotl32 (buzHash rom (old :: cs)) 1 ^^^ rotl32 (romRead rom old) (cs.length + 1) ^^^
        romRead rom b := by
  have hdrop := buzHash_drop_first rom old (cs ++ [b])
  rw [← List.cons_append, buzHash_append_one, List.length_append, List.length_singleton] at hdrop
  rw [← hdrop]
  ac_rfl

section Roll
variable {cap : Nat} {rom : Vector Word 256} {e : Engine} {old : Byte} {pre post : List Byte} (b : Byte)

/-- A full window, split at the slot the next `ADD` reads and writes. -/
theorem Engine.Inv.exists_split_of_full (hi : e.Inv cap rom) (hw : e.wsize ≠ 0)
    (hf : e.full = true) :
    ∃ pre old post, e.win.map Prod.snd = pre ++ old :: post ∧ pre.length = e.slot.toNat := by
  have hlt : e.slot.toNat < (e.win.map Prod.snd).length := by
    rw [hi.length_win, slotsWritten_of_full hf]
    exact hi.slot_lt hw
  refine ⟨(e.win.map Prod.snd).take e.slot.toNat, (e.win.map Prod.snd)[e.slot.toNat],
    (e.win.map Prod.snd).drop (e.slot.toNat + 1), ?_, ?_⟩
  · rw [List.getElem_cons_drop, List.take_append_drop]
  · rw [List.length_take, min_eq_left hlt.le]

/-- The slot read holds the byte that leaves (42_add_byte.md R103). -/
theorem Engine.Inv.read_slot_of_full (hi : e.Inv cap rom)
    (hsplit : e.win.map Prod.snd = pre ++ old :: post) (hpre : pre.length = e.slot.toNat) :
    Memory.read e.win e.slot.toNat = some old := by
  rw [read_of_range e.win _ _ hi.written, hsplit, ← hpre]
  simp

theorem Engine.Inv.windowBytes_of_split (hi : e.Inv cap rom) (hf : e.full = true)
    (hsplit : e.win.map Prod.snd = pre ++ old :: post) (hpre : pre.length = e.slot.toNat) :
    windowBytes e = old :: (post ++ pre) := by
  rw [hi.windowBytes_of_full hf, hsplit, ← hpre]
  simp

theorem Engine.Inv.length_of_split (hi : e.Inv cap rom) (hf : e.full = true)
    (hsplit : e.win.map Prod.snd = pre ++ old :: post) (hpre : pre.length = e.slot.toNat) :
    (post ++ pre).length + 1 = e.wsize.toNat := by
  rw [← slotsWritten_of_full hf, ← hi.length_windowBytes, hi.windowBytes_of_split hf hsplit hpre,
    List.length_cons]

/-- An evicting `ADD` changes one byte of the window RAM in place. -/
theorem Engine.Inv.rollEngine_win (hi : e.Inv cap rom) (hw : e.wsize ≠ 0) (hf : e.full = true) :
    (rollEngine rom e old b).win = e.win.set e.slot.toNat (e.slot.toNat, b) :=
  write_set e.win _ _ b hi.written ((hi.slot_lt hw).trans_eq (slotsWritten_of_full hf).symm)

/-- The window slides: the oldest byte leaves and the new one enters. -/
theorem Engine.Inv.windowBytes_rollEngine (hi : e.Inv cap rom) (hw : e.wsize ≠ 0)
    (hf : e.full = true) (hsplit : e.win.map Prod.snd = pre ++ old :: post)
    (hpre : pre.length = e.slot.toNat) :
    windowBytes (rollEngine rom e old b) = post ++ pre ++ [b] := by
  have hsnd : (rollEngine rom e old b).win.map Prod.snd = pre ++ [b] ++ post := by
    rw [hi.rollEngine_win b hw hf, List.map_set, hsplit, ← hpre]
    simp
  have hpos : (rollEngine rom e old b).pos.toNat = (pre ++ [b]).length := by
    rw [List.length_append, hpre]
    exact hi.slot_succ hw
  rw [windowBytes, hsnd, hpos, List.drop_left, List.take_left, List.append_assoc]

/-- An evicting `ADD` keeps the invariant. -/
theorem Engine.Inv.after_rollEngine (hi : e.Inv cap rom) (hw : e.wsize ≠ 0) (hf : e.full = true)
    (hsplit : e.win.map Prod.snd = pre ++ old :: post) (hpre : pre.length = e.slot.toNat) :
    (rollEngine rom e old b).Inv cap rom where
  fits := hi.fits
  posLe := (hi.slot_succ hw).trans_le (hi.slot_lt hw)
  posPos := fun _ _ hzero => by
    have hsucc := hi.slot_succ hw
    rw [show e.slot + 1 = 0 from hzero] at hsucc
    cases hsucc
  written := by
    rw [hi.rollEngine_win b hw hf, List.map_set, hi.written, slotsWritten_of_full hf]
    apply List.ext_getElem <;> simp [slotsWritten, rollEngine, List.getElem_set]
  hashed := by
    rw [hi.windowBytes_rollEngine b hw hf hsplit hpre, buzHash_slide rom old b,
      hi.length_of_split hf hsplit hpre, ← hi.windowBytes_of_split hf hsplit hpre, ← hi.hashed,
      ← rotl32_mod _ e.wsize.toNat]
    rfl

end Roll

/-! ### `ADD` under the invariant -/

/-- Under the invariant `ADD` completes, keeps the invariant and the window size, and slides the window
(42_add_byte.md R110). -/
theorem Engine.Inv.exists_addEngine {cap : Nat} {rom : Vector Word 256} {e : Engine}
    (hi : e.Inv cap rom) (b : Byte) :
    ∃ e', addEngine cap rom e b = .ok e' ∧ e'.Inv cap rom ∧ e'.wsize = e.wsize ∧
      windowBytes e' = lastBytes e.wsize.toNat (windowBytes e ++ [b]) := by
  by_cases hw : e.wsize = 0
  · refine ⟨_, (addEngine_ok_iff ..).2 (.inl ⟨hw, rfl⟩), hi.after_zeroWindow hw, rfl, ?_⟩
    rw [hi.windowBytes_zeroWindow hw, hw]
    exact (lastBytes_zero _).symm
  have hcap : e.slot.toNat < cap := (hi.slot_lt hw).trans_le hi.fits
  cases hf : e.full with
  | false =>
    refine ⟨_, (addEngine_ok_iff ..).2 (.inr ⟨hw, hcap, .inl ⟨hf, rfl⟩⟩),
      hi.after_growEngine b hw hf, rfl, ?_⟩
    rw [hi.windowBytes_growEngine b hw hf, lastBytes_of_length_le]
    rw [List.length_append, hi.length_windowBytes, slotsWritten_of_not_full hf]
    exact hi.slot_lt hw
  | true =>
    obtain ⟨pre, old, post, hsplit, hpre⟩ := hi.exists_split_of_full hw hf
    refine ⟨_, (addEngine_ok_iff ..).2 (.inr ⟨hw, hcap, .inr ⟨hf, old, hi.read_slot_of_full hsplit hpre,
      rfl⟩⟩), hi.after_rollEngine b hw hf hsplit hpre, rfl, ?_⟩
    rw [hi.windowBytes_rollEngine b hw hf hsplit hpre, hi.windowBytes_of_split hf hsplit hpre,
      List.cons_append, lastBytes_cons_of_length_eq]
    rw [List.length_append, List.length_singleton, hi.length_of_split hf hsplit hpre]

end Sys2Proof.Machine

/-! ## Commands, steps and runs under the invariant -/

namespace Sys2Proof.Machine

section Invariant
variable {s : State}

/-- Without an engine there is nothing for the invariant to ask. -/
theorem inv_of_engine_none (hs : s.engine = none) : s.Inv := fun e he => by
  rw [hs] at he
  cases he

theorem inv_of_engine_some {e : Engine} (hs : s.engine = some e) (he : e.Inv s.cfg.wcap.val s.rom) :
    s.Inv := fun e' he' => by
  obtain rfl : e = e' := Option.some.inj (hs.symm.trans he')
  exact he

/-- The invariant is about the engine, the configuration and the table alone. -/
theorem State.Inv.of_same {t : State} (hi : s.Inv) (he : t.engine = s.engine) (hc : t.cfg = s.cfg)
    (hr : t.rom = s.rom) : t.Inv := by
  intro e hte
  rw [hc, hr]
  exact hi e (he ▸ hte)

theorem State.Inv.setInput (hi : s.Inv) (es : List HostEvent) : (s.setInput es).Inv :=
  hi.of_same rfl rfl rfl

theorem State.Inv.present (hi : s.Inv) (o : Option HostEvent) : (s.present o).Inv :=
  hi.of_same rfl rfl rfl

/-- The reset state has no engine (10_state.md R22). -/
theorem reset_inv : State.reset.Inv := inv_of_engine_none rfl

/-- Every completed command keeps the invariant. -/
theorem State.Inv.after_exec {i : Instr} {t : State} (hi : s.Inv) (h : exec i s = .next t) : t.Inv := by
  rcases exec_cases i s t h with ⟨v, rfl⟩ | ⟨w, hw, rfl⟩ | ⟨b, e, e', he, ha, rfl⟩
  · exact hi.of_same rfl rfl rfl
  · exact inv_of_engine_some rfl (freshEngine_inv w _ hw)
  · obtain ⟨e'', ha', hinv, -, -⟩ := (hi e he).exists_addEngine b
    obtain rfl : e' = e'' := Except.ok.inj (ha.symm.trans ha')
    exact inv_of_engine_some rfl hinv

/-- Every step keeps the invariant (10_state.md section 2). -/
theorem State.Inv.after_step {t : State} (hi : s.Inv) (h : step s = .next t) : t.Inv := by
  rcases step_cases s t h with ⟨-, rfl⟩ | ⟨cut, rest, -, rfl⟩ | ⟨w, rest, i, -, -, h⟩
  · exact hi
  · exact inv_of_engine_none rfl
  · exact (hi.setInput rest).after_exec h

/-- `ADD` to an initialised engine under the invariant completes. -/
theorem State.Inv.execAdd_completes {e : Engine} (hi : s.Inv) (he : s.engine = some e) (b : Byte) :
    ∃ e', execAdd b s = .next ((s.setEngine e').respond (.word e'.hash)) ∧
      e'.Inv s.cfg.wcap.val s.rom ∧ e'.wsize = e.wsize ∧
      windowBytes e' = lastBytes e.wsize.toNat (windowBytes e ++ [b]) := by
  obtain ⟨e', ha, hslides⟩ := (hi e he).exists_addEngine b
  exact ⟨e', (execAdd_next_iff ..).2 ⟨e, e', he, ha, rfl⟩, hslides⟩

/-- Under the invariant no command faults: `ADD`, the one that could, completes or is refused
(20_memory.md R33, R34). -/
theorem State.Inv.exec_ne_fault (hi : s.Inv) (i : Instr) (f : Fault) : exec i s ≠ .fault f := by
  cases i with
  | size w => exact nofun
  | tbl b => exact nofun
  | init w =>
    simp only [exec, execInit]
    split <;> exact nofun
  | add b =>
    cases he : s.engine with
    | none => simp [exec, execAdd, he]
    | some e =>
      obtain ⟨e', hadd, -⟩ := hi.execAdd_completes he b
      simp [exec, hadd]

/-- Under the invariant no step faults. -/
theorem State.Inv.step_ne_fault (hi : s.Inv) (f : Fault) : step s ≠ .fault f := by
  unfold step serveHost
  split
  · exact nofun
  · exact nofun
  · exact nofun
  · split
    · exact nofun
    · exact (hi.setInput _).exec_ne_fault _ f

/-- However long a run under any host, it keeps the invariant. -/
theorem State.Inv.after_runUnder (hi : s.Inv) (h : HostBehaviour) (n : Nat) {t : State}
    (ht : runUnder h n s = .next t) : t.Inv := by
  induction n generalizing t with
  | zero => cases ht; exact hi
  | succ n ih =>
    obtain ⟨u, hu, hstep⟩ := (runUnder_succ_next_iff h s n t).1 ht
    exact ((ih hu).present _).after_step hstep

/-- Under the invariant no run faults, however long. -/
theorem State.Inv.runUnder_ne_fault (hi : s.Inv) (h : HostBehaviour) (n : Nat) (f : Fault) :
    runUnder h n s ≠ .fault f := by
  induction n with
  | zero => exact nofun
  | succ n ih =>
    rw [runUnder_succ]
    cases hu : runUnder h n s with
    | next u => exact ((hi.after_runUnder h n hu).present _).step_ne_fault f
    | fault g => exact fun hg => ih (hu.trans hg)
    | refused r => exact nofun

/-- Every state of an endless run meets the invariant when the first does. -/
theorem IsRun.inv {h : HostBehaviour} {states : Nat → State} (hrun : IsRun h states)
    (hi : (states 0).Inv) (n : Nat) : (states n).Inv := by
  induction n with
  | zero => exact hi
  | succ n ih => exact (ih.present _).after_step (hrun n)

end Invariant

end Sys2Proof.Machine

/-! ## Hash streams -/

namespace Sys2Proof.Machine

/-- A state `t` that stands where `INIT w` and an `ADD` for each of the bytes `bs` bring a machine that was
in `s`, but for the results returned (45_properties.md, its standing assumption). -/
structure Fed (s : State) (w : Half) (bs : List Byte) (t : State) : Prop where
  rom : t.rom = s.rom
  cfg : t.cfg = s.cfg
  input : t.input = s.input
  engine : ∃ e, t.engine = some e ∧ e.Inv s.cfg.wcap.val s.rom ∧ e.wsize = w ∧
    windowBytes e = lastBytes w.toNat bs

section Streams
variable {s t : State} {w : Half} {bs : List Byte}

/-- `INIT w`, where `w` fits, starts a stream (41_sizing_and_init.md R82). -/
theorem exec_init_fed (hw : w.toNat ≤ s.cfg.wcap.val) :
    ∃ t, exec (.init w) s = .next t ∧ Fed s w [] t ∧ t.results = s.results ++ [.done] := by
  refine ⟨_, (execInit_next_iff w s _).2 ⟨hw, rfl⟩, ⟨rfl, rfl, rfl, ?_⟩, rfl⟩
  exact ⟨_, rfl, freshEngine_inv w s.rom hw, rfl,
    (windowBytes_freshEngine w).trans (lastBytes_of_length_le _ [] (Nat.zero_le _)).symm⟩

/-- The stored hash of a stream is the BuzHash of the last bytes fed (45_properties.md R130). -/
theorem Fed.hash (hfed : Fed s w bs t) :
    ∃ e, t.engine = some e ∧ e.hash = buzHash s.rom (lastBytes w.toNat bs) := by
  obtain ⟨e, he, hinv, -, hwin⟩ := hfed.engine
  exact ⟨e, he, hwin ▸ hinv.hashed⟩

/-- An `ADD` completes in every stream, feeds its byte, and returns the BuzHash of the last bytes fed. -/
theorem Fed.exec_add (hfed : Fed s w bs t) (b : Byte) :
    ∃ u, exec (.add b) t = .next u ∧ Fed s w (bs ++ [b]) u ∧
      u.results = t.results ++ [.word (buzHash s.rom (lastBytes w.toNat (bs ++ [b])))] := by
  obtain ⟨hrom, hcfg, hinput, e, he, hinv, hsize, hwin⟩ := hfed
  have ht : t.Inv := inv_of_engine_some he (by rwa [hcfg, hrom])
  obtain ⟨e', hadd, hinv', hsize', hwin'⟩ := ht.execAdd_completes he b
  rw [hsize, hwin, lastBytes_lastBytes_append] at hwin'
  rw [hcfg, hrom] at hinv'
  refine ⟨_, hadd, ⟨hrom, hcfg, hinput, e', rfl, hinv', hsize'.trans hsize, hwin'⟩, ?_⟩
  rw [respond_results, setEngine_results, hinv'.hashed, hwin']

end Streams

section EndlessStreams
variable {s : State} {w : Half} (bytes : Nat → Byte)

/-- With nothing presented before, a command the host presents now is executed (30_encoding.md R50). -/
theorem step_present_encode (t : State) (ht : t.input = []) (i : Instr) :
    step (t.present (some (.command (encode i)))) = exec i t := by
  rw [present_some_of_input_nil t ht]
  simp [step, serveHost, decode_encode, setInput_eq_self t ht]

/-- The first `n` bytes of an endless sequence. -/
def firstBytes (n : Nat) : List Byte := (List.range n).map bytes

theorem firstBytes_succ (n : Nat) : firstBytes bytes (n + 1) = firstBytes bytes n ++ [bytes n] := by
  simp [firstBytes, List.range_succ]

/-- The first moment of an endless stream. -/
theorem step_streamForever_zero (hs : s.input = []) (hw : w.toNat ≤ s.cfg.wcap.val) :
    ∃ t, step (s.present (presentForever (streamForever w bytes) 0)) = .next t ∧
      Fed s w (firstBytes bytes 0) t ∧ t.results = s.results ++ [.done] := by
  rw [presentForever, streamForever, step_present_encode s hs]
  exact exec_init_fed hw

/-- Every later moment of an endless stream. -/
theorem Fed.step_streamForever {n : Nat} {t : State} (hs : s.input = [])
    (hfed : Fed s w (firstBytes bytes n) t) :
    ∃ u, step (t.present (presentForever (streamForever w bytes) (n + 1))) = .next u ∧
      Fed s w (firstBytes bytes (n + 1)) u ∧
      u.results = t.results ++ [.word (buzHash s.rom (lastBytes w.toNat (firstBytes bytes (n + 1))))] := by
  rw [presentForever, streamForever, step_present_encode t (hfed.input.trans hs), firstBytes_succ]
  exact hfed.exec_add (bytes n)

/-- Any number of moments of an endless stream complete, with the bytes of these moments fed. -/
theorem runUnder_streamForever (hs : s.input = []) (hw : w.toNat ≤ s.cfg.wcap.val) (n : Nat) :
    ∃ t, runUnder (presentForever (streamForever w bytes)) (n + 1) s = .next t ∧
      Fed s w (firstBytes bytes n) t := by
  induction n with
  | zero =>
    obtain ⟨t, hstep, hfed, -⟩ := step_streamForever_zero bytes hs hw
    exact ⟨t, hstep, hfed⟩
  | succ n ih =>
    obtain ⟨t, ht, hfed⟩ := ih
    obtain ⟨u, hstep, hfed', -⟩ := hfed.step_streamForever bytes hs
    exact ⟨u, (runUnder_succ_next_iff _ s _ u).2 ⟨t, ht, hstep⟩, hfed'⟩

/-- The endless run of a stream is there. -/
theorem exists_isRun_streamForever (hs : s.input = []) (hw : w.toNat ≤ s.cfg.wcap.val) :
    ∃ states : Nat → State, states 0 = s ∧ IsRun (presentForever (streamForever w bytes)) states := by
  refine (prefixes_complete_iff_exists_isRun _ s).1 fun n => ?_
  cases n with
  | zero => exact ⟨s, rfl⟩
  | succ n => exact (runUnder_streamForever bytes hs hw n).imp fun _ ht => ht.1

/-- Each state of it has the bytes of its moments fed. -/
theorem IsRun.fed {states : Nat → State}
    (hrun : IsRun (presentForever (streamForever w bytes)) states) (h0 : states 0 = s)
    (hs : s.input = []) (hw : w.toNat ≤ s.cfg.wcap.val) (n : Nat) :
    Fed s w (firstBytes bytes n) (states (n + 1)) := by
  obtain ⟨t, ht, hfed⟩ := runUnder_streamForever bytes hs hw n
  have hn := (isRun_iff_runUnder _ s states).1 ⟨h0, hrun⟩ (n + 1)
  obtain rfl : t = states (n + 1) := Host.Outcome.next.inj (ht.symm.trans hn)
  exact hfed

end EndlessStreams

end Sys2Proof.Machine

/-! ## The obligations of runs without end -/

namespace Sys2Proof.Machine

/-! ### O46: endless runs and their prefixes -/

/-- Settles O46: both directions go moment by moment through the one step that each moment adds. -/
theorem endlessRunIffPrefixes : Obligations.EndlessRunIffPrefixes :=
  fun h s => ⟨isRun_iff_runUnder h s, prefixes_complete_iff_exists_isRun h s⟩

/-! ### O47: the prefixes of a host are finite runs -/

/-- Settles O47: a pause is an idle step, and an event served later is one more in the list. -/
theorem runUnderIsFiniteRun : Obligations.RunUnderIsFiniteRun :=
  fun h n s => runUnder_eq_coreRun h n s

/-! ### No run faults -/

/-- Settles O48: each step keeps the invariant and, under it, does not fault. -/
theorem runsKeepInvariant : Obligations.RunsKeepInvariant :=
  ⟨fun h n _ hi => ⟨fun _ ht => hi.after_runUnder h n ht, hi.runUnder_ne_fault h n⟩,
    fun _ _ ⟨h0, hrun⟩ => hrun.inv (h0 ▸ reset_inv)⟩

/-! ### Endless hash streams -/

/-- Settles O49: the endless run is there because all its prefixes complete, and each of its steps feeds one
byte. -/
theorem endlessStreamRuns : Obligations.EndlessStreamRuns := by
  intro w bytes s hw hs
  obtain ⟨states, h0, hrun⟩ := exists_isRun_streamForever bytes hs hw
  refine ⟨states, h0, hrun, ?_, fun n => ?_⟩
  · obtain ⟨t, hstep, -, hres⟩ := step_streamForever_zero bytes hs hw
    obtain rfl : t = states 1 := Host.Outcome.next.inj (hstep.symm.trans (h0 ▸ hrun 0))
    exact hres
  · obtain ⟨u, hstep, -, hres⟩ := (hrun.fed bytes h0 hs hw n).step_streamForever bytes hs
    obtain rfl : u = states (n + 2) := Host.Outcome.next.inj (hstep.symm.trans (hrun (n + 1)))
    obtain ⟨e, he, hhash⟩ := (hrun.fed bytes h0 hs hw (n + 1)).hash
    exact ⟨e, he, hhash, hhash ▸ hres⟩

/-! ### O50: endless interleavings -/

/-- Settles O50: while the others step, a member's own host pauses, and a pause changes nothing. -/
theorem endlessInterleavingIndependent : Obligations.EndlessInterleavingIndependent := by
  intro h n sys
  refine ⟨system_runUnder_rom h n sys, system_runUnder_length h n sys, fun j => ⟨?_, ?_, ?_⟩⟩
  · exact fun o hj ho => system_runUnder_running h sys j o hj ho n
  · exact fun f hj => system_runUnder_stopped h sys j _ hj (fun _ => rfl) n
  · exact fun r hj => system_runUnder_stopped h sys j _ hj (fun _ => rfl) n

end Sys2Proof.Machine

/-! ## When an engine is initialised -/

namespace Sys2Proof.Machine

/-- After a completed command there is an engine exactly when the command was an `INIT` or there was one
before (10_state.md R17). -/
theorem exec_engine_isSome_iff (i : Instr) (s t : State) (h : exec i s = .next t) :
    t.engine.isSome ↔ (∃ w, i = .init w) ∨ s.engine.isSome := by
  cases i with
  | size w =>
    obtain rfl := Host.Outcome.next.inj h
    simp
  | init w =>
    obtain ⟨-, rfl⟩ := (execInit_next_iff ..).1 h
    simp
  | add b =>
    obtain ⟨e, e', he, -, rfl⟩ := (execAdd_next_iff ..).1 h
    simp [he]
  | tbl b =>
    obtain rfl := Host.Outcome.next.inj h
    simp

/-- Settles O27: an idle step keeps the engine, a reset removes it, and a command makes one only if it is
an `INIT` and never removes one. -/
theorem initialisedFromInitUntilReset : Obligations.InitialisedFromInitUntilReset := by
  intro s t h
  rcases step_cases s t h with ⟨hs, rfl⟩ | ⟨cut, rest, hs, rfl⟩ | ⟨w, rest, i, hs, hd, h⟩
  · simp [hs]
  · simp [hs]
  · rw [exec_engine_isSome_iff i _ t h]
    simp [hs, hd]

end Sys2Proof.Machine

/-! ## The table ROM -/

namespace Sys2Proof.Machine

/-- Settles O25: an idle step and a reset leave the table as it is, and a command writes the engine and the
results alone. -/
theorem romNeverWritten : Obligations.RomNeverWritten := by
  intro s t h
  obtain ⟨hrom, -⟩ := step_rom_cfg s t h
  exact hrom

end Sys2Proof.Machine

/-! ## The table lookup -/

namespace Sys2Proof.Machine

/-- The concatenation `{op, arg}` of a command word, as a number (30_encoding.md R52). -/
theorem toNat_cmdWord (op : BitVec 2) (arg : Half) :
    (cmdWord op arg).toNat = op.toNat * 65536 + arg.toNat := by
  rw [cmdWord, BitVec.toNat_append, ← Nat.shiftLeft_add_eq_or_of_lt arg.isLt, Nat.shiftLeft_eq]

/-- A table lookup completes in every state and only returns a result (40_table_lookup.md R70). -/
theorem exec_tbl (b : Byte) (s : State) :
    exec (.tbl b) s = .next (s.respond (.word (romRead s.rom b))) := rfl

/-- Settles O16: the word is the concatenation of opcode 3 and the byte, and the next state is the one that
has returned the ROM word. -/
theorem tblReturnsTableWord : Obligations.TblReturnsTableWord := by
  intro b s
  refine ⟨?_, exec_tbl b s⟩
  calc (encode (.tbl b)).toNat
      = 3 * 65536 + (b.zeroExtend 16).toNat := toNat_cmdWord 3 _
    _ = 0x30000 + b.toNat := by rw [BitVec.toNat_setWidth_of_le (by decide)]

end Sys2Proof.Machine

/-! ## Sizing and initialisation -/

namespace Sys2Proof.Machine

/-- A completed command other than an `INIT` leaves an initialised engine initialised, of the same window
size (41_sizing_and_init.md R86). -/
theorem exec_wsize_of_ne_init (i : Instr) (s t : State) (e : Engine) (h : exec i s = .next t)
    (he : s.engine = some e) (hi : ∀ w, i ≠ .init w) :
    ∃ e', t.engine = some e' ∧ e'.wsize = e.wsize := by
  cases i with
  | size w =>
    obtain rfl := Host.Outcome.next.inj h
    exact ⟨e, he, rfl⟩
  | init w => exact absurd rfl (hi w)
  | add b =>
    obtain ⟨e₀, e', he₀, hadd, rfl⟩ := (execAdd_next_iff ..).1 h
    obtain rfl : e₀ = e := Option.some.inj (he₀.symm.trans he)
    obtain ⟨hsize, -⟩ := addEngine_keeps _ _ _ _ b hadd
    exact ⟨e', rfl, hsize⟩
  | tbl b =>
    obtain rfl := Host.Outcome.next.inj h
    exact ⟨e, he, rfl⟩

/-- Settles O26: an idle step keeps the engine, a reset is shut out, and of the commands only an `INIT`
sets the window size. -/
theorem windowSizeImmutable : Obligations.WindowSizeImmutable := by
  intro s t e h he hinit hreset
  rcases step_cases s t h with ⟨-, rfl⟩ | ⟨cut, rest, hs, -⟩ | ⟨w, rest, i, hs, hd, h⟩
  · exact ⟨e, he, rfl⟩
  · exact absurd hs (hreset cut rest)
  · exact exec_wsize_of_ne_init i _ t e h he fun x hx => hinit w rest x hs (hx ▸ hd)

/-- The size sum is exact: the header size leaves room in 32 bits for every window size
(41_sizing_and_init.md R80, 00_scope.md R6). -/
theorem toNat_storageBytes (cfg : Config) (w : Half) :
    (storageBytes cfg w).toNat = cfg.hdrBytes.val + w.toNat := by
  have hhdr := cfg.hdrBytes.isLt
  have hw := w.isLt
  rw [storageBytes, BitVec.toNat_ofNat, Nat.mod_eq_of_lt (by omega)]

/-- `SIZE` completes in every state and only returns a result (41_sizing_and_init.md R80). -/
theorem exec_size (w : Half) (s : State) :
    exec (.size w) s = .next (s.respond (.word (storageBytes s.cfg w))) := rfl

/-- Settles O14: the word is the concatenation of opcode 0 and the window size, and the one result is the
exact sum. -/
theorem sizeReturnsStorageBytes : Obligations.SizeReturnsStorageBytes := by
  intro w s
  refine ⟨?_, storageBytes s.cfg w, exec_size w s, toNat_storageBytes s.cfg w⟩
  calc (encode (.size w)).toNat
      = 0 * 65536 + w.toNat := toNat_cmdWord 0 w
    _ = w.toNat := by omega

/-- An `INIT` of a window that does not fit the RAM is refused (41_sizing_and_init.md R85). -/
theorem execInit_of_capacity_lt {w : Half} {s : State} (h : s.cfg.wcap.val < w.toNat) :
    execInit w s = .refused .windowTooLarge := by
  have hfits : windowFits s.cfg w = false := decide_eq_false h.not_ge
  rw [execInit, hfits]
  rfl

/-- Settles O15: the word is the concatenation of opcode 1 and the window size; an `INIT` that fits
completes with the fresh engine, the others are refused. -/
theorem initMakesFreshEngine : Obligations.InitMakesFreshEngine := by
  intro w s
  exact ⟨toNat_cmdWord 1 w, fun hw => (execInit_next_iff w s _).2 ⟨hw, rfl⟩, execInit_of_capacity_lt⟩

end Sys2Proof.Machine

/-! ## Adding a byte -/

namespace Sys2Proof.Machine

/-- `ADD` needs an engine: without one the byte is not looked at (42_add_byte.md R109). -/
theorem execAdd_of_engine_none {s : State} (b : Byte) (he : s.engine = none) :
    execAdd b s = .refused .notInitialised := by
  rw [execAdd, he]

/-- Settles O18: `ADD` is executed by `execAdd`, which refuses where there is no engine. -/
theorem addUninitialisedRefused : Obligations.AddUninitialisedRefused :=
  fun b _ he => execAdd_of_engine_none b he

end Sys2Proof.Machine

/-! ## Finite hash streams: the results and the stored hash -/

namespace Sys2Proof.Machine

/-- A sequence of commands completes exactly when its first does, and the others from there. -/
theorem runCommands_cons_next_iff (i : Instr) (is : List Instr) (s u : State) :
    runCommands (i :: is) s = .next u ↔ ∃ t, exec i s = .next t ∧ runCommands is t = .next u := by
  cases h : exec i s <;> simp [runCommands, h]

/-- The last bytes of a string are its end, where that is as long as the window. -/
theorem lastBytes_append_of_length_eq (n : Nat) (as bs : List Byte) (h : bs.length = n) :
    lastBytes n (as ++ bs) = bs := by
  simp [lastBytes, h]

/-- What the `ADD`s of the bytes `bs` return in a stream of window size `w` that was fed `fed` before
(45_properties.md R130). -/
def addResults (rom : Vector Word 256) (w : Half) (fed bs : List Byte) : List Result :=
  (List.range bs.length).map fun k => .word (buzHash rom (lastBytes w.toNat (fed ++ bs.take (k + 1))))

@[simp] theorem addResults_nil (rom : Vector Word 256) (w : Half) (fed : List Byte) :
    addResults rom w fed [] = [] := rfl

theorem addResults_cons (rom : Vector Word 256) (w : Half) (fed bs : List Byte) (b : Byte) :
    addResults rom w fed (b :: bs) =
      .word (buzHash rom (lastBytes w.toNat (fed ++ [b]))) :: addResults rom w (fed ++ [b]) bs := by
  simp [addResults, List.range_succ_eq_map, Function.comp_def]

@[simp] theorem length_addResults (rom : Vector Word 256) (w : Half) (fed bs : List Byte) :
    (addResults rom w fed bs).length = bs.length := by
  simp [addResults]

theorem getElem?_addResults (rom : Vector Word 256) (w : Half) (fed bs : List Byte) (k : Nat)
    (h : k < bs.length) :
    (addResults rom w fed bs)[k]? =
      some (.word (buzHash rom (lastBytes w.toNat (fed ++ bs.take (k + 1))))) := by
  simp [addResults, h]

section FiniteStreams
variable {s : State} {w : Half}

/-- In every stream any number of `ADD`s completes, by induction on the bytes still to be fed. -/
theorem Fed.runCommands_feedCommands (bs : List Byte) {fed : List Byte} {t : State}
    (hfed : Fed s w fed t) :
    ∃ u, runCommands (feedCommands bs) t = .next u ∧ Fed s w (fed ++ bs) u ∧
      u.results = t.results ++ addResults s.rom w fed bs := by
  induction bs generalizing fed t with
  | nil => exact ⟨t, rfl, by simpa using hfed, by simp⟩
  | cons b bs ih =>
    obtain ⟨t₁, hadd, hfed₁, hres₁⟩ := hfed.exec_add b
    obtain ⟨u, hrun, hfed', hres⟩ := ih hfed₁
    refine ⟨u, (runCommands_cons_next_iff ..).2 ⟨t₁, hadd, hrun⟩, by simpa using hfed', ?_⟩
    rw [hres, hres₁, addResults_cons, List.append_assoc, List.singleton_append]

/-- Every stream whose window fits completes, with all its bytes fed (45_properties.md R130). -/
theorem runStream_fed (hw : w.toNat ≤ s.cfg.wcap.val) (bs : List Byte) :
    ∃ t, runStream w bs s = .next t ∧ Fed s w bs t ∧
      t.results = s.results ++ .done :: addResults s.rom w [] bs := by
  obtain ⟨t, hinit, hfed, hres⟩ := exec_init_fed hw
  obtain ⟨u, hrun, hfed', hres'⟩ := hfed.runCommands_feedCommands bs
  refine ⟨u, (runCommands_cons_next_iff ..).2 ⟨t, hinit, hrun⟩, hfed', ?_⟩
  rw [hres', hres, List.append_assoc, List.singleton_append]

/-- Result number `k` of a stream, counted from that of `INIT`, is the BuzHash of the last of the first `k`
bytes. -/
theorem getElem?_results_of_runStream {bs : List Byte} {t : State} (hw : w.toNat ≤ s.cfg.wcap.val)
    (ht : runStream w bs s = .next t) {k : Nat} (hk : 1 ≤ k) (hkl : k ≤ bs.length) :
    t.results[s.results.length + k]? =
      some (.word (buzHash s.rom (lastBytes w.toNat (bs.take k)))) := by
  obtain ⟨t', ht', -, hres⟩ := runStream_fed hw bs
  obtain rfl : t' = t := Host.Outcome.next.inj (ht'.symm.trans ht)
  obtain ⟨j, rfl⟩ := Nat.exists_eq_add_of_le' hk
  rw [hres, List.getElem?_append_right (Nat.le_add_right _ _), Nat.add_sub_cancel_left,
    List.getElem?_cons_succ, getElem?_addResults s.rom w [] bs j hkl, List.nil_append]

/-- A stream returns one result for `INIT` and one for each byte. -/
theorem length_results_of_runStream {bs : List Byte} {t : State} (hw : w.toNat ≤ s.cfg.wcap.val)
    (ht : runStream w bs s = .next t) :
    t.results.length = s.results.length + bs.length + 1 := by
  obtain ⟨t', ht', -, hres⟩ := runStream_fed hw bs
  obtain rfl : t' = t := Host.Outcome.next.inj (ht'.symm.trans ht)
  simp [hres, Nat.add_assoc]

/-- The last result of a stream of at least one byte is the BuzHash of its last bytes. -/
theorem getLast?_results_of_runStream {bs : List Byte} {t : State} (hw : w.toNat ≤ s.cfg.wcap.val)
    (ht : runStream w bs s = .next t) (hbs : 1 ≤ bs.length) :
    t.results.getLast? = some (.word (buzHash s.rom (lastBytes w.toNat bs))) := by
  rw [List.getLast?_eq_getElem?, length_results_of_runStream hw ht, Nat.add_sub_cancel,
    getElem?_results_of_runStream hw ht hbs le_rfl, List.take_length]

end FiniteStreams

/-- Settles O42: both results are the BuzHash of the phrase, which is all the window holds where it ends. -/
theorem substringFound : Obligations.SubstringFound := by
  intro l before phrase after s hw hlen hl
  obtain ⟨t, ht, -, -⟩ := runStream_fed hw (before ++ phrase ++ after)
  obtain ⟨u, hu, -, -⟩ := runStream_fed hw phrase
  refine ⟨t, u, buzHash s.rom phrase, ht, hu, ?_, ?_⟩
  · rw [getLast?_results_of_runStream hw hu (by omega), lastBytes_of_length_le _ _ hlen.le]
  · have htake : (before ++ phrase ++ after).take (before.length + phrase.length) = before ++ phrase := by
      rw [← List.length_append, List.take_left]
    rw [Nat.add_assoc, getElem?_results_of_runStream hw ht (by omega) (by simp), htake,
      lastBytes_append_of_length_eq _ _ _ hlen]

/-- Settles O37: neither window has evicted a byte, so both hashes are the BuzHash of all the bytes. -/
theorem streamGrowingWindow : Obligations.StreamGrowingWindow := by
  intro w k bs s hw hlen hk
  obtain ⟨t, ht, hfed, -⟩ := runStream_fed hw bs
  obtain ⟨u, hu, hfed', -⟩ := runStream_fed (hk.trans hw) bs
  obtain ⟨e, he, hhash⟩ := hfed.hash
  obtain ⟨d, hd, hhash'⟩ := hfed'.hash
  rw [lastBytes_of_length_le _ bs (hlen.trans_le hk)] at hhash
  rw [lastBytes_of_length_le _ bs hlen.le] at hhash'
  refine ⟨t, u, e, d, ht, hu, he, hd, hhash.trans hhash'.symm, fun hk0 => ?_⟩
  obtain rfl : bs = [] := List.eq_nil_of_length_eq_zero (by simpa [hk0] using hlen)
  exact hhash'

end Sys2Proof.Machine

/-! ## Two machines given the same commands -/

namespace Sys2Proof.Machine

/-- Two states with all that a command reads in common: engine, table and configuration. What the hosts
present next and what was returned before may differ. -/
structure Agree (s s' : State) : Prop where
  engine : s'.engine = s.engine
  rom : s'.rom = s.rom
  cfg : s'.cfg = s.cfg

/-- From `s` to `t` and from `s'` to `t'` the same results were returned, and `t` and `t'` agree. -/
def AnsweredAlike (s s' t t' : State) : Prop :=
  Agree t t' ∧ ∃ rs, t.results = s.results ++ rs ∧ t'.results = s'.results ++ rs

theorem AnsweredAlike.trans {s s' t t' u u' : State} (h : AnsweredAlike s s' t t')
    (h' : AnsweredAlike t t' u u') : AnsweredAlike s s' u u' := by
  obtain ⟨-, rs, hrs, hrs'⟩ := h
  obtain ⟨hagree, qs, hqs, hqs'⟩ := h'
  exact ⟨hagree, rs ++ qs, by rw [hqs, hrs, List.append_assoc], by rw [hqs', hrs', List.append_assoc]⟩

section Alike
variable {s s' t : State}

/-- `INIT` reads no engine: the configuration alone decides what it does (41_sizing_and_init.md R84). -/
theorem exec_init_answeredAlike {w : Half} (hrom : s'.rom = s.rom) (hcfg : s'.cfg = s.cfg)
    (ht : exec (.init w) s = .next t) :
    ∃ t', exec (.init w) s' = .next t' ∧ AnsweredAlike s s' t t' := by
  obtain ⟨hfits, rfl⟩ := (execInit_next_iff w s t).1 ht
  exact ⟨_, (execInit_next_iff w s' _).2 ⟨hcfg ▸ hfits, rfl⟩, ⟨rfl, hrom, hcfg⟩, [.done], rfl, rfl⟩

/-- A command reads nothing but engine, table and configuration. -/
theorem Agree.after_exec {i : Instr} (h : Agree s s') (ht : exec i s = .next t) :
    ∃ t', exec i s' = .next t' ∧ AnsweredAlike s s' t t' := by
  obtain ⟨hengine, hrom, hcfg⟩ := h
  cases i with
  | size w =>
    obtain rfl := Host.Outcome.next.inj ((exec_size w s).symm.trans ht)
    exact ⟨_, exec_size w s', ⟨hengine, hrom, hcfg⟩, [_], rfl, by rw [hcfg]; rfl⟩
  | init w => exact exec_init_answeredAlike hrom hcfg ht
  | add b =>
    obtain ⟨e, e', he, hadd, rfl⟩ := (execAdd_next_iff b s t).1 ht
    exact ⟨_, (execAdd_next_iff b s' _).2 ⟨e, e', hengine.trans he, by rwa [hcfg, hrom], rfl⟩,
      ⟨rfl, hrom, hcfg⟩, [.word e'.hash], rfl, rfl⟩
  | tbl b =>
    obtain rfl := Host.Outcome.next.inj ((exec_tbl b s).symm.trans ht)
    exact ⟨_, exec_tbl b s', ⟨hengine, hrom, hcfg⟩, [_], rfl, by rw [hrom]; rfl⟩

/-- A sequence of commands reads no more than that either, by induction on it. -/
theorem Agree.after_runCommands {is : List Instr} (h : Agree s s') (ht : runCommands is s = .next t) :
    ∃ t', runCommands is s' = .next t' ∧ AnsweredAlike s s' t t' := by
  induction is generalizing s s' with
  | nil =>
    obtain rfl : s = t := Host.Outcome.next.inj ht
    exact ⟨s', rfl, h, [], by simp⟩
  | cons i is ih =>
    obtain ⟨t₁, hexec, hrun⟩ := (runCommands_cons_next_iff i is s t).1 ht
    obtain ⟨t₁', hexec', halike⟩ := h.after_exec hexec
    obtain ⟨t', hrun', halike'⟩ := ih halike.1 hrun
    exact ⟨t', (runCommands_cons_next_iff i is s' t').2 ⟨t₁', hexec', hrun'⟩, halike.trans halike'⟩

end Alike

/-- Settles O38: `INIT` makes the two states agree, and agreeing states answer the `ADD`s alike. -/
theorem streamDeterminism : Obligations.StreamDeterminism := by
  intro w bs s s' t hrom hcfg ht
  obtain ⟨t₁, hinit, hrun⟩ := (runCommands_cons_next_iff _ _ s t).1 ht
  obtain ⟨t₁', hinit', halike⟩ := exec_init_answeredAlike hrom hcfg hinit
  obtain ⟨t', hrun', halike'⟩ := halike.1.after_runCommands hrun
  obtain ⟨hagree, rs, hrs, hrs'⟩ := halike.trans halike'
  exact ⟨t', rs, (runCommands_cons_next_iff _ _ s' t').2 ⟨t₁', hinit', hrun'⟩, hagree.engine, hrs, hrs'⟩

end Sys2Proof.Machine

/-! ## A window of one byte -/

namespace Sys2Proof.Machine

/-- The engine after the first byte of a stream with a window of one slot: the wrap is pending and the byte's
word stands unrotated (45_properties.md R138). -/
def oneByteEngine (rom : Vector Word 256) (b : Byte) : Engine :=
  { hash := romRead rom b, wsize := 1, pos := 1, filled := false, win := [(0, b)] }

theorem growEngine_freshEngine_one (rom : Vector Word 256) (b : Byte) :
    growEngine rom (freshEngine 1) b = oneByteEngine rom b := by
  simp [growEngine, freshEngine, oneByteEngine, slot_eq, Memory.write]

/-- The rotated word exists only inside the next `ADD`, after its step 2 (45_properties.md R138). -/
theorem stepAge_oneByteEngine (rom : Vector Word 256) (b : Byte) :
    (stepAge (stepWrap (oneByteEngine rom b).wsize (loadWork (oneByteEngine rom b)))).h =
      rotl32 (romRead rom b) 1 := by
  rw [age_wrap_eq]
  rfl

/-- The first byte goes to slot 0 of the fresh engine, which is not full. -/
theorem runStream_one {s : State} (hcap : 1 ≤ s.cfg.wcap.val) (b : Byte) :
    ∃ t, runStream 1 [b] s = .next t ∧ t.engine = some (oneByteEngine s.rom b) ∧
      t.results = s.results ++ [.done, .word (romRead s.rom b)] := by
  have hinit : exec (.init 1) s = .next ((s.setEngine (freshEngine 1)).respond .done) :=
    (execInit_next_iff 1 s _).2 ⟨hcap, rfl⟩
  have hadd : addEngine s.cfg.wcap.val s.rom (freshEngine 1) b = .ok (oneByteEngine s.rom b) :=
    (addEngine_ok_iff ..).2
      (.inr ⟨by decide, hcap, .inl ⟨rfl, (growEngine_freshEngine_one s.rom b).symm⟩⟩)
  have hexec := (execAdd_next_iff b ((s.setEngine (freshEngine 1)).respond .done) _).2
    ⟨_, _, rfl, hadd, rfl⟩
  refine ⟨_, (runCommands_cons_next_iff ..).2 ⟨_, hinit, (runCommands_cons_next_iff ..).2
    ⟨_, hexec, rfl⟩⟩, rfl, ?_⟩
  simp [oneByteEngine]

/-- Settles O41: the fresh engine takes the byte without eviction; by the closed form the next `ADD` returns
the BuzHash of its own byte alone. -/
theorem oneByteScenario : Obligations.OneByteScenario := by
  intro s hcap
  obtain ⟨t, ht, hengine, hres⟩ := runStream_one hcap 0x41
  refine ⟨t, _, ht, hengine, rfl, hres, rfl, rfl, rfl, stepAge_oneByteEngine s.rom 0x41, fun b => ?_⟩
  obtain ⟨t', ht', hfed, -⟩ := runStream_fed (w := 1) hcap [0x41]
  obtain rfl : t' = t := Host.Outcome.next.inj (ht'.symm.trans ht)
  obtain ⟨u, hadd, -, hres'⟩ := hfed.exec_add b
  rw [lastBytes_append_of_length_eq (1 : Half).toNat [0x41] [b] rfl] at hres'
  exact ⟨u, hadd, by simpa [buzHash] using hres'⟩

end Sys2Proof.Machine

/-! ## Refusals -/

namespace Sys2Proof.Machine

/-- `INIT` is refused for one reason, the capacity (41_sizing_and_init.md R85). -/
theorem execInit_refused_iff (w : Half) (s : State) (r : Refusal) :
    execInit w s = .refused r ↔ s.cfg.wcap.val < w.toNat ∧ r = .windowTooLarge := by
  rcases Nat.lt_or_ge s.cfg.wcap.val w.toNat with hlt | hfits
  · simp [execInit_of_capacity_lt hlt, hlt, eq_comm]
  · simp [(execInit_next_iff w s _).2 ⟨hfits, rfl⟩, hfits.not_gt]

/-- `ADD` is refused for one reason, a missing engine: where there is one it completes or faults
(42_add_byte.md R109). -/
theorem execAdd_refused_iff (b : Byte) (s : State) (r : Refusal) :
    execAdd b s = .refused r ↔ s.engine = none ∧ r = .notInitialised := by
  cases he : s.engine with
  | none => simp [execAdd_of_engine_none b he, eq_comm]
  | some e => cases ha : addEngine s.cfg.wcap.val s.rom e b <;> simp [execAdd, he, ha]

/-- The preconditions of the commands: `ADD` needs an engine, `INIT` a window that fits, and `SIZE` and
`TBL` nothing (60_exceptions.md R153). -/
theorem exec_refused_iff (i : Instr) (s : State) (r : Refusal) :
    exec i s = .refused r ↔
      (∃ b, i = .add b ∧ s.engine = none ∧ r = .notInitialised) ∨
      (∃ w, i = .init w ∧ s.cfg.wcap.val < w.toNat ∧ r = .windowTooLarge) := by
  cases i with
  | size w => simp [exec_size]
  | init w => simpa [exec] using execInit_refused_iff w s r
  | add b => simpa [exec] using execAdd_refused_iff b s r
  | tbl b => simp [exec_tbl]

/-- The order of the checks: the overlap before the word, the word before the command's preconditions; with
nothing presented, or at a reset, nothing is refused (60_exceptions.md R156). -/
theorem step_refused_iff (s : State) (r : Refusal) :
    step s = .refused r ↔
      (∃ w rest, s.input = .overlap w :: rest ∧ r = .overlap) ∨
      (∃ w rest, s.input = .command w :: rest ∧
        ((decode w = .reserved ∧ r = .reservedEncoding) ∨
          ∃ i, decode w = .command i ∧ exec i (s.setInput rest) = .refused r)) := by
  rcases hs : s.input with _ | ⟨⟨w⟩ | ⟨w⟩ | ⟨cut⟩, rest⟩
  case nil => simp [step, serveHost, hs]
  case cons.command => cases hd : decode w <;> simp [step, serveHost, hs, hd, eq_comm]
  case cons.overlap => simp [step, serveHost, hs, eq_comm]
  case cons.reset => simp [step, serveHost, hs]

/-- A word's command is refused by the preconditions of what the word decodes to. -/
theorem decoded_refused_iff (d : Decoded) (s : State) (r : Refusal) :
    (∃ i, d = .command i ∧ exec i s = .refused r) ↔
      (∃ b, d = .command (.add b) ∧ s.engine = none ∧ r = .notInitialised) ∨
      (∃ w, d = .command (.init w) ∧ s.cfg.wcap.val < w.toNat ∧ r = .windowTooLarge) := by
  cases d with
  | reserved => simp
  | command i => simp [exec_refused_iff]

/-- A step is refused for the capacity only if the capacity leaves out some 16-bit window size
(41_sizing_and_init.md R85, 00_scope.md R7). -/
theorem wcap_lt_of_step_windowTooLarge {s : State} (h : step s = .refused .windowTooLarge) :
    s.cfg.wcap.val < 65535 := by
  obtain ⟨_, _, -, hr⟩ | ⟨w, rest, -, ⟨-, hr⟩ | ⟨i, -, hi⟩⟩ := (step_refused_iff ..).1 h
  · cases hr
  · cases hr
  · obtain ⟨_, -, -, hr⟩ | ⟨x, -, hx, -⟩ := (exec_refused_iff ..).1 hi
    · cases hr
    · exact Nat.lt_of_lt_of_le hx (Nat.le_of_lt_succ x.isLt)

/-- Settles O9: a step refuses by the order of its checks, and a command by its precondition; the default
capacity leaves out no window size. -/
theorem refusalsExactly : Obligations.RefusalsExactly := by
  refine ⟨fun s r => ?_, fun s hcap h => absurd hcap (wcap_lt_of_step_windowTooLarge h).ne⟩
  simp only [step_refused_iff, decoded_refused_iff, setInput_engine, setInput_cfg]

end Sys2Proof.Machine

/-! ## Reset -/

namespace Sys2Proof.Machine

/-- A reset is served the same way however the port runs commands: the command it may have cut short is
never run (70_reset_and_hazards.md R180). -/
theorem serveHost_reset (run : Instr → State → Host.Outcome State Fault Refusal) {s : State}
    {cut : Option CmdWord} {rest : List HostEvent} (hs : s.input = .reset cut :: rest) :
    serveHost run s = .next (s.setInput rest).hardReset := by
  simp [serveHost, hs]

/-- Settles O11: the step takes the event and removes the engine, and no other field is touched. -/
theorem resetAbandonsCommand : Obligations.ResetAbandonsCommand := by
  intro s cut rest hs
  calc step s = .next (s.setInput rest).hardReset := serveHost_reset exec hs
    _ = .next { s with engine := none, input := rest } := rfl

end Sys2Proof.Machine

/-! ## The command words: fields, encoder and decoder -/

namespace Sys2Proof

/-- A word is the concatenation of its two fields (30_encoding.md R52). -/
theorem cmdWord_opField_argField (w : CmdWord) : cmdWord (opField w) (argField w) = w := by
  exact (BitVec.extractLsb'_append_extractLsb'_eq_extractLsb' (x := w) rfl).trans BitVec.extractLsb'_eq_self

/-- The field `arg` is the concatenation of its two bytes (30_encoding.md R55). -/
theorem argField_eq_append (w : CmdWord) : argField w = highField w ++ byteField w :=
  (BitVec.extractLsb'_append_extractLsb'_eq_extractLsb' (len₂ := 8) (x := w) (Nat.zero_add 8).symm).symm

theorem cmdWord_inj {op op' : BitVec 2} {arg arg' : Half} :
    cmdWord op arg = cmdWord op' arg' ↔ op = op' ∧ arg = arg' := by
  refine ⟨fun h => ⟨?_, ?_⟩, fun ⟨hop, harg⟩ => hop ▸ harg ▸ rfl⟩
  · simpa only [opField_cmdWord] using congrArg opField h
  · simpa only [argField_cmdWord] using congrArg argField h

/-- Where `arg[15:8]` is zero the field `arg` is its low byte, widened (30_encoding.md R55). -/
theorem zeroExtend_byteField {w : CmdWord} (h : highField w = 0) :
    (byteField w).zeroExtend 16 = argField w := by
  rw [argField_eq_append, h, BitVec.zeroExtend, BitVec.setWidth_eq_append (by decide)]
  rfl

theorem opField_cases (w : CmdWord) :
    opField w = 0 ∨ opField w = 1 ∨ opField w = 2 ∨ opField w = 3 := by
  have h : ∀ op : BitVec 2, op = 0 ∨ op = 1 ∨ op = 2 ∨ op = 3 := by decide
  exact h (opField w)

theorem decodeByte_eq_command_iff (c : Byte → Instr) (w : CmdWord) (i : Instr) :
    decodeByte c w = .command i ↔ highField w = 0 ∧ c (byteField w) = i := by
  unfold decodeByte
  split <;> simp_all

theorem decodeByte_eq_reserved_iff (c : Byte → Instr) (w : CmdWord) :
    decodeByte c w = .reserved ↔ highField w ≠ 0 := by
  unfold decodeByte
  split <;> simp_all

section Rows
variable {w : CmdWord}

theorem decode_of_op_zero (h : opField w = 0) : decode w = .command (.size (argField w)) := by
  simp [decode, h]

theorem decode_of_op_one (h : opField w = 1) : decode w = .command (.init (argField w)) := by
  simp [decode, h]

theorem decode_of_op_two (h : opField w = 2) : decode w = decodeByte .add w := by
  simp [decode, h]

theorem decode_of_op_three (h : opField w = 3) : decode w = decodeByte .tbl w := by
  simp [decode, h]

end Rows

/-- Everything the decoder can read from a word: one row of the opcode map for each command
(30_encoding.md R53). -/
theorem decode_eq_command_iff (w : CmdWord) (i : Instr) :
    decode w = .command i ↔
      (opField w = 0 ∧ .size (argField w) = i) ∨ (opField w = 1 ∧ .init (argField w) = i) ∨
      (opField w = 2 ∧ highField w = 0 ∧ .add (byteField w) = i) ∨
      (opField w = 3 ∧ highField w = 0 ∧ .tbl (byteField w) = i) := by
  rcases opField_cases w with h | h | h | h
  · simp [decode_of_op_zero h, h]
  · simp [decode_of_op_one h, h]
  · simp [decode_of_op_two h, decodeByte_eq_command_iff, h]
  · simp [decode_of_op_three h, decodeByte_eq_command_iff, h]

/-- The decoder reads no command exactly from a word of the two byte rows whose `arg[15:8]` is not zero
(30_encoding.md R57). -/
theorem decode_eq_reserved_iff (w : CmdWord) :
    decode w = .reserved ↔ (opField w = 2 ∨ opField w = 3) ∧ highField w ≠ 0 := by
  rcases opField_cases w with h | h | h | h
  · simp [decode_of_op_zero h, h]
  · simp [decode_of_op_one h, h]
  · simp [decode_of_op_two h, decodeByte_eq_reserved_iff, h]
  · simp [decode_of_op_three h, decodeByte_eq_reserved_iff, h]

/-- The encoder writes back the word a command was read from: no bit of it is dropped. -/
theorem encode_of_decode {w : CmdWord} {i : Instr} (h : decode w = .command i) : encode i = w := by
  have hw := cmdWord_opField_argField w
  obtain ⟨hop, rfl⟩ | ⟨hop, rfl⟩ | ⟨hop, hhigh, rfl⟩ | ⟨hop, hhigh, rfl⟩ := (decode_eq_command_iff w i).1 h
  · rwa [hop] at hw
  · rwa [hop] at hw
  · rwa [hop, ← zeroExtend_byteField hhigh] at hw
  · rwa [hop, ← zeroExtend_byteField hhigh] at hw

/-- Settles O1: the encoder undoes the decoder, and the decoder the encoder. -/
theorem decodeIffEncode : Obligations.DecodeIffEncode :=
  fun _ i => ⟨encode_of_decode, fun h => h ▸ decode_encode i⟩

/-- Settles O4: eleven fixed words, each decoded by evaluation. -/
theorem specWordsDecode : Obligations.SpecWordsDecode := by
  unfold Obligations.SpecWordsDecode
  decide

/-! ### Fields as numbers -/

theorem toNat_opField (w : CmdWord) : (opField w).toNat = w.toNat / 65536 := by
  have hw := w.isLt
  rw [opField, BitVec.extractLsb'_toNat, Nat.shiftRight_eq_div_pow]
  omega

theorem toNat_highField (w : CmdWord) : (highField w).toNat = w.toNat / 256 % 256 := by
  rw [highField, BitVec.extractLsb'_toNat, Nat.shiftRight_eq_div_pow]

theorem argField_eq_ofNat (w : CmdWord) : argField w = BitVec.ofNat 16 w.toNat := by
  apply BitVec.eq_of_toNat_eq
  rw [argField, BitVec.extractLsb'_toNat, BitVec.toNat_ofNat, Nat.shiftRight_zero]

theorem byteField_eq_ofNat (w : CmdWord) : byteField w = BitVec.ofNat 8 w.toNat := by
  apply BitVec.eq_of_toNat_eq
  rw [byteField, BitVec.extractLsb'_toNat, BitVec.toNat_ofNat, Nat.shiftRight_zero]

theorem opField_two_or_three_iff (w : CmdWord) :
    opField w = 2 ∨ opField w = 3 ↔ 2 ≤ w.toNat / 65536 := by
  have hop : ∀ op : BitVec 2, op = 2 ∨ op = 3 ↔ 2 ≤ op.toNat := by decide
  rw [hop, toNat_opField]

theorem highField_ne_zero_iff (w : CmdWord) : highField w ≠ 0 ↔ w.toNat / 256 % 256 ≠ 0 := by
  rw [ne_eq, BitVec.toNat_eq, toNat_highField]
  rfl

/-- Settles O2: the decoder reads no command exactly where its two byte rows find `arg[15:8]` not zero. -/
theorem reservedWordsExactly : Obligations.ReservedWordsExactly := by
  intro w
  rw [decode_eq_reserved_iff, opField_two_or_three_iff, highField_ne_zero_iff]

/-! ### Match and mask -/

theorem cmdWord_and_cmdWord (op op' : BitVec 2) (arg arg' : Half) :
    cmdWord op arg &&& cmdWord op' arg' = cmdWord (op &&& op') (arg &&& arg') :=
  BitVec.and_append

/-- The mask of `SIZE` and `INIT` asks for the opcode alone (30_encoding.md R53). -/
theorem and_opMask_eq_iff (w : CmdWord) (op : BitVec 2) :
    w &&& 0x30000#18 = cmdWord op 0 ↔ opField w = op := by
  have hand : w &&& 0x30000#18 = cmdWord (opField w) 0 :=
    calc w &&& 0x30000#18
        = cmdWord (opField w) (argField w) &&& cmdWord (BitVec.allOnes 2) 0 := by
          rw [cmdWord_opField_argField]
          rfl
      _ = cmdWord (opField w) 0 := by
          rw [cmdWord_and_cmdWord, BitVec.and_allOnes, BitVec.ofNat_eq_ofNat, BitVec.and_zero]
  rw [hand, cmdWord_inj, and_iff_left rfl]

/-- The mask of `ADD` and `TBL` asks for the opcode and a zero `arg[15:8]` (30_encoding.md R53, R57). -/
theorem and_byteMask_eq_iff (w : CmdWord) (op : BitVec 2) :
    w &&& 0x3FF00#18 = cmdWord op 0 ↔ opField w = op ∧ highField w = 0 := by
  have hand : w &&& 0x3FF00#18 = cmdWord (opField w) (highField w ++ 0#8) :=
    calc w &&& 0x3FF00#18
        = cmdWord (opField w) (highField w ++ byteField w) &&&
            cmdWord (BitVec.allOnes 2) (BitVec.allOnes 8 ++ 0#8) := by
          rw [← argField_eq_append, cmdWord_opField_argField]
          rfl
      _ = cmdWord (opField w) (highField w ++ 0#8) := by
          rw [cmdWord_and_cmdWord, BitVec.and_append, BitVec.and_allOnes, BitVec.and_allOnes, BitVec.and_zero]
  rw [hand, cmdWord_inj, show (0 : Half) = 0#8 ++ 0#8 from rfl, BitVec.append_left_inj]
  rfl

/-- Settles O3: each mask keeps the fields that the row's decoding asks for, and the row's match gives
their values. -/
theorem matchAndMaskDecode : Obligations.MatchAndMaskDecode := by
  intro w
  rw [← argField_eq_ofNat, ← byteField_eq_ofNat]
  refine ⟨(and_opMask_eq_iff w 0).trans ?_, (and_opMask_eq_iff w 1).trans ?_,
    (and_byteMask_eq_iff w 2).trans ?_, (and_byteMask_eq_iff w 3).trans ?_⟩
  all_goals simp [decode_eq_command_iff]

end Sys2Proof

/-! ## Written lines -/

namespace Sys2Proof

theorem assemble_of_wf {l : Line} (h : l.wf = true) : assemble l = some l.commands := if_pos h

theorem assemble_of_not_wf {l : Line} (h : l.wf = false) : assemble l = none := by
  rw [assemble, h]
  rfl

/-! ### Operands in and out of range (30_encoding.md R60) -/

theorem wfHalf_num {n : Nat} (h : n < 65536) : (Operand.num n).wfHalf = true := decide_eq_true h
theorem wfHalf_num_of_le {n : Nat} (h : 65536 ≤ n) : (Operand.num n).wfHalf = false :=
  decide_eq_false h.not_gt
theorem wfByte_num {n : Nat} (h : n < 256) : (Operand.num n).wfByte = true := decide_eq_true h
theorem wfByte_num_of_le {n : Nat} (h : 256 ≤ n) : (Operand.num n).wfByte = false :=
  decide_eq_false h.not_gt
theorem wfByte_chr {c : Char} (h : c.toNat < 128) : (Operand.chr c).wfByte = true := decide_eq_true h
theorem wfByte_chr_of_le {c : Char} (h : 128 ≤ c.toNat) : (Operand.chr c).wfByte = false :=
  decide_eq_false h.not_gt

/-- Settles O5: a line spells its own command where its operand is in range, and none otherwise. -/
theorem writtenLinesAssemble : Obligations.WrittenLinesAssemble := by
  refine ⟨fun n h => ?_, fun n h => ?_, fun c => ⟨rfl, rfl⟩, fun n h => ?_, fun n h => ?_, fun c h => ?_,
    fun c h => ?_⟩
  · exact ⟨assemble_of_wf (l := .size _) (wfHalf_num h), assemble_of_wf (l := .init _) (wfHalf_num h)⟩
  · exact ⟨assemble_of_not_wf (l := .size _) (wfHalf_num_of_le h),
      assemble_of_not_wf (l := .init _) (wfHalf_num_of_le h)⟩
  · exact ⟨assemble_of_wf (l := .add _) (wfByte_num h), assemble_of_wf (l := .tbl _) (wfByte_num h)⟩
  · exact ⟨assemble_of_not_wf (l := .add _) (wfByte_num_of_le h),
      assemble_of_not_wf (l := .tbl _) (wfByte_num_of_le h)⟩
  · exact ⟨assemble_of_wf (l := .add _) (wfByte_chr h), assemble_of_wf (l := .tbl _) (wfByte_chr h)⟩
  · exact ⟨assemble_of_not_wf (l := .add _) (wfByte_chr_of_le h),
      assemble_of_not_wf (l := .tbl _) (wfByte_chr_of_le h)⟩

/-! ### `FEED` (30_encoding.md R61) -/

/-- A `FEED` of operands in range stands for the `ADD`s of their values. -/
theorem assemble_feedBytes {os : List Operand} (hne : os ≠ []) (h : ∀ o ∈ os, o.wfByte = true) :
    assemble (.feedBytes os) = some (Machine.feedCommands (os.map fun o => BitVec.ofNat 8 o.value)) := by
  rw [assemble_of_wf (by simpa [Line.wf, hne] using h), Line.commands, Machine.feedCommands, List.map_map]
  rfl

theorem assemble_feedBytes_of_mem {os : List Operand} {o : Operand} (ho : o ∈ os)
    (h : o.wfByte = false) : assemble (.feedBytes os) = none := by
  refine assemble_of_not_wf ?_
  have hall : os.all Operand.wfByte = false := List.all_eq_false.2 ⟨o, ho, by simp [h]⟩
  rw [Line.wf, hall, Bool.and_false]

/-- A `FEED` of an ASCII text stands for the `ADD`s of its characters' codes. -/
theorem assemble_feedText {cs : List Char} (hne : cs ≠ []) (h : ∀ c ∈ cs, c.toNat < 128) :
    assemble (.feedText cs) = some (Machine.feedCommands (cs.map fun c => BitVec.ofNat 8 c.toNat)) := by
  rw [assemble_of_wf (by simpa [Line.wf, hne] using h), Line.commands, Machine.feedCommands, List.map_map]
  rfl

theorem assemble_feedText_of_mem {cs : List Char} {c : Char} (hc : c ∈ cs) (h : 128 ≤ c.toNat) :
    assemble (.feedText cs) = none := by
  refine assemble_of_not_wf ?_
  have hall : (cs.all fun c => decide (c.toNat < 128)) = false :=
    List.all_eq_false.2 ⟨c, hc, by simpa using h⟩
  rw [Line.wf, hall, Bool.and_false]

/-- Settles O6: a `FEED` with all its bytes in range stands for their `ADD`s, and one that is out of range
spoils it. -/
theorem feedLinesAssemble : Obligations.FeedLinesAssemble := by
  refine ⟨fun bs hbs => ?_, fun cs hcs h => ⟨?_, assemble_feedText hcs h⟩,
    fun os n hn h => assemble_feedBytes_of_mem hn (wfByte_num_of_le h),
    fun os c hc h => assemble_feedBytes_of_mem hc (wfByte_chr_of_le h),
    fun cs c hc h => assemble_feedText_of_mem hc h, rfl, rfl⟩
  · have hwf : ∀ o ∈ bs.map fun b => Operand.num b.toNat, o.wfByte = true := by
      simpa using fun b _ => wfByte_num (BitVec.isLt b)
    rw [assemble_feedBytes (by simpa using hbs) hwf, List.map_map]
    simp [Function.comp_def, Operand.value]
  · have hwf : ∀ o ∈ cs.map Operand.chr, o.wfByte = true := by
      simpa using fun c hc => wfByte_chr (h c hc)
    rw [assemble_feedBytes (by simpa using hcs) hwf, List.map_map]
    rfl

end Sys2Proof

/-! ## The port: which event is served how -/

namespace Sys2Proof.Machine

/-- The next command word is taken and the command it decodes to runs (30_encoding.md R50). -/
theorem step_of_decode {s : State} {w : CmdWord} {rest : List HostEvent} {i : Instr}
    (hs : s.input = .command w :: rest) (hd : decode w = .command i) :
    step s = exec i (s.setInput rest) := by
  simp [step, serveHost, hs, hd]

/-- Settles O7: the event is taken, and the word's command runs on what remains. -/
theorem stepRunsDecodedCommand : Obligations.StepRunsDecodedCommand :=
  fun _ _ _ _ hs hd => step_of_decode hs hd

/-- Settles O10: a state with nothing presented is one to which a pause of the host was added. -/
theorem idleStepHoldsState : Obligations.IdleStepHoldsState := by
  intro s hs
  rw [← step_idle s hs, present_none]

/-- The commands one after the other, each from the state the one before leaves. -/
theorem runCommands_cons (i : Instr) (is : List Instr) (s : State) :
    runCommands (i :: is) s = andThen (exec i s) (runCommands is) := rfl

/-- What a list of commands puts on the port (30_encoding.md R50). -/
def commandEvents (is : List Instr) : List HostEvent := is.map fun i => .command (encode i)

/-- As many steps as there are commands on the port are these commands, the later events waiting. -/
theorem coreRun_commandEvents (is : List Instr) (rest : List HostEvent) (s : State) :
    coreRun is.length (s.setInput (commandEvents is ++ rest)) = runCommands is (s.setInput rest) := by
  induction is generalizing s with
  | nil => rfl
  | cons i is ih =>
    have hstep : step (s.setInput (commandEvents (i :: is) ++ rest)) =
        exec i (s.setInput (commandEvents is ++ rest)) := step_of_decode rfl (decode_encode i)
    rw [List.length_cons, coreRun_succ, hstep, runCommands_cons, exec_setInput i s, exec_setInput i s,
      andThen_assoc, andThen_assoc]
    simp only [andThen_next, ih]

/-- Settles O8: each step takes one word, and decoding gives its command back. -/
theorem portRunsCommandsInOrder : Obligations.PortRunsCommandsInOrder :=
  fun is rest s => coreRun_commandEvents is rest s

/-! ### Commands that leave the engine alone -/

/-- The command reads or writes the engine: `INIT` and `ADD` do, `SIZE` and `TBL` do not. -/
def usesEngine : Instr → Bool
  | .size _ => false
  | .tbl _ => false
  | .init _ => true
  | .add _ => true

/-- A command that does not use the engine completes and leaves engine, table and configuration
(40_table_lookup.md R70, 41_sizing_and_init.md R80). -/
theorem Agree.after_exec_of_not_usesEngine {i : Instr} {s s' t : State} (h : Agree s s')
    (hi : usesEngine i = false) (ht : exec i s = .next t) : Agree t s' := by
  obtain ⟨hengine, hrom, hcfg⟩ := h
  cases i with
  | size w =>
    obtain rfl := Host.Outcome.next.inj ((exec_size w s).symm.trans ht)
    exact ⟨hengine, hrom, hcfg⟩
  | tbl b =>
    obtain rfl := Host.Outcome.next.inj ((exec_tbl b s).symm.trans ht)
    exact ⟨hengine, hrom, hcfg⟩
  | init w => cases hi
  | add b => cases hi

/-- Two agreeing states still agree after the same commands when one of them leaves out those that do not
use the engine. -/
theorem Agree.after_runCommands_filter {is : List Instr} {s s' t : State} (h : Agree s s')
    (ht : runCommands is s = .next t) :
    ∃ t', runCommands (is.filter usesEngine) s' = .next t' ∧ Agree t t' := by
  induction is generalizing s s' with
  | nil =>
    obtain rfl : s = t := Host.Outcome.next.inj ht
    exact ⟨s', rfl, h⟩
  | cons i is ih =>
    obtain ⟨t₁, hexec, hrun⟩ := (runCommands_cons_next_iff i is s t).1 ht
    cases hi : usesEngine i with
    | false =>
      rw [List.filter_cons_of_neg (by simp [hi])]
      exact ih (h.after_exec_of_not_usesEngine hi hexec) hrun
    | true =>
      obtain ⟨t₁', hexec', hagree, -⟩ := h.after_exec hexec
      obtain ⟨t', hrun', hagree'⟩ := ih hagree hrun
      rw [List.filter_cons_of_pos hi]
      exact ⟨t', (runCommands_cons_next_iff ..).2 ⟨t₁', hexec', hrun'⟩, hagree'⟩

/-- Settles O17: with and without `SIZE` and `TBL` the states agree after every command. -/
theorem sizeAndTblDoNotDisturb : Obligations.SizeAndTblDoNotDisturb := by
  intro is s t ht
  obtain ⟨t', hrun, hagree⟩ := Agree.after_runCommands_filter ⟨rfl, rfl, rfl⟩ ht
  exact ⟨t', hrun, hagree.engine⟩

/-- Settles O24: of a completed command's three cases none touches table, configuration or events, each
returns one result, and `SIZE` and `TBL` only return theirs. -/
theorem commandFrame : Obligations.CommandFrame := by
  intro i s t h
  obtain ⟨hrom, hcfg, hinput⟩ := exec_frame i s t h
  refine ⟨?_, hrom, hcfg, hinput, ?_⟩
  · obtain ⟨v, rfl⟩ | ⟨w, -, rfl⟩ | ⟨b, e, e', -, -, rfl⟩ := exec_cases i s t h
    · exact ⟨.word v, rfl⟩
    · exact ⟨.done, rfl⟩
    · exact ⟨.word e'.hash, rfl⟩
  · rintro (⟨w, rfl⟩ | ⟨b, rfl⟩)
    · obtain rfl := Host.Outcome.next.inj ((exec_size w s).symm.trans h)
      rfl
    · obtain rfl := Host.Outcome.next.inj ((exec_tbl b s).symm.trans h)
      rfl

/-- Settles O13: `SIZE` and `TBL` only return a result, `INIT` needs a window that fits, and `ADD` an
engine. -/
theorem legalWhileUninitialised : Obligations.LegalWhileUninitialised := by
  intro s hs
  refine ⟨fun w => ⟨_, exec_size w s, hs⟩, fun b => ⟨_, exec_tbl b s, hs⟩, fun w hw => ?_,
    fun b => execAdd_of_engine_none b hs⟩
  exact ⟨_, (execInit_next_iff w s _).2 ⟨hw, rfl⟩, rfl⟩

/-! ### The reset state and the invariant -/

/-- Settles O12: the reset state is the one record with no engine, `TABLE` and the default capacity. -/
theorem resetState : Obligations.ResetState :=
  ⟨reset_engine, fun _ => rfl, rfl, Nat.le_of_lt_succ State.reset.cfg.hdrBytes.isLt⟩

/-- Settles O29: at reset there is no engine for the invariant to ask about. -/
theorem resetMeetsInvariant : Obligations.ResetMeetsInvariant := reset_inv

/-- Settles O28: an idle step and a reset keep it, and so does every command. -/
theorem stepKeepsInvariant : Obligations.StepKeepsInvariant := fun _ _ hi h => hi.after_step h

/-- Settles O30: under the invariant `ADD`, the one command that could fault, finds its slot in the window
RAM and, where it evicts, written. -/
theorem noFaultUnderInvariant : Obligations.NoFaultUnderInvariant := fun _ f hi => hi.step_ne_fault f

end Sys2Proof.Machine

/-! ## The window RAM -/

namespace Sys2Proof.Machine

/-- A slot reads the byte last written to it (20_memory.md R31, R32). -/
theorem read_write_same (m : Memory) (a : Nat) (v : Byte) :
    Memory.read (Memory.write m a v) a = some v := by
  induction m with
  | nil => simp [Memory.write, Memory.read]
  | cons c m ih =>
    obtain ⟨k, u⟩ := c
    simp only [Memory.write]
    split
    · simp [Memory.read]
    · split
      · simp [Memory.read]
      · rename_i hne
        simp [Memory.read, hne, ih]

/-- A write leaves every other slot (20_memory.md R32). -/
theorem read_write_of_ne (m : Memory) {a a' : Nat} (v : Byte) (h : a' ≠ a) :
    Memory.read (Memory.write m a v) a' = Memory.read m a' := by
  induction m with
  | nil => simp [Memory.write, Memory.read, h]
  | cons c m ih =>
    obtain ⟨k, u⟩ := c
    simp only [Memory.write]
    split
    · simp [Memory.read, h]
    · split
      · rename_i hk
        simp [Memory.read, h, ← hk]
      · simp [Memory.read, ih]

/-- Settles O31: by induction on the list of written slots, where the write inserts, replaces or goes on. -/
theorem windowReadAfterWrite : Obligations.WindowReadAfterWrite :=
  fun m a v => ⟨read_write_same m a v, fun _ h => read_write_of_ne m v h⟩

end Sys2Proof.Machine

/-! ## What `ADD` does and what it leaves -/

namespace Sys2Proof.Machine

/-- On a zero window `ADD` gives the zero hash (42_add_byte.md R108). -/
theorem addEngine_of_zero (cap : Nat) (rom : Vector Word 256) {e : Engine} (b : Byte) (hw : e.wsize = 0) :
    addEngine cap rom e b = .ok (zeroWindow e) :=
  (addEngine_ok_iff ..).2 (.inl ⟨hw, rfl⟩)

/-- Settles O19: the zero window's engine and its hash as the result. -/
theorem addZeroWindow : Obligations.AddZeroWindow := by
  intro b s e he hw
  exact (execAdd_next_iff b s _).2 ⟨e, _, he, addEngine_of_zero _ _ b hw, rfl⟩

/-- Settles O20: a window that is not full takes the byte in, a full one also evicts `old`. -/
theorem addSixSteps : Obligations.AddSixSteps := by
  intro b old s e he hw evict p h hcap hold
  have hp : p = e.slot := (slot_eq e).symm
  rw [hp] at hcap hold
  refine (execAdd_next_iff b s _).2
    ⟨e, { hash := h, wsize := e.wsize, pos := p + 1, filled := evict, win := Memory.write e.win p.toNat b },
      he, (addEngine_ok_iff ..).2 (.inr ⟨hw, hcap, ?_⟩), rfl⟩
  rw [hp]
  cases hf : e.full with
  | false =>
    have hevict : evict = false := hf
    refine .inl ⟨rfl, ?_⟩
    simp [growEngine, h, hevict, romRead]
  | true =>
    have hevict : evict = true := hf
    refine .inr ⟨rfl, old, hold hevict, ?_⟩
    simp [rollEngine, h, hevict, romRead, evictAmount]

/-- Settles O21: under the invariant `ADD` completes and keeps it, so the new hash is that of the new
window. -/
theorem addCompletesAndSlides : Obligations.AddCompletesAndSlides := by
  intro b s e hi he
  obtain ⟨e', hadd, hinv, -, hwin⟩ := hi.execAdd_completes he b
  exact ⟨_, e', hadd, rfl, hwin, hwin ▸ hinv.hashed, rfl⟩

/-- `ADD` writes the window RAM at one slot, and a zero window not at all (42_add_byte.md R104, R108). -/
theorem addEngine_win {cap : Nat} {rom : Vector Word 256} {e e' : Engine} {b : Byte}
    (h : addEngine cap rom e b = .ok e') :
    e'.win = if e.wsize = 0 then e.win else Memory.write e.win e.slot.toNat b := by
  obtain ⟨hw, rfl⟩ | ⟨hw, -, ⟨-, rfl⟩ | ⟨-, old, -, rfl⟩⟩ := (addEngine_ok_iff ..).1 h
  · exact (if_pos hw).symm
  · exact (if_neg hw).symm
  · exact (if_neg hw).symm

/-- The flag after an `ADD` (10_state.md R12): set in a zero window, and else where the window was full. -/
theorem addEngine_filled_iff {cap : Nat} {rom : Vector Word 256} {e e' : Engine} {b : Byte}
    (h : addEngine cap rom e b = .ok e') : e'.filled = true ↔ e.wsize = 0 ∨ e.full = true := by
  obtain ⟨hw, rfl⟩ | ⟨hw, -, ⟨hf, rfl⟩ | ⟨hf, old, -, rfl⟩⟩ := (addEngine_ok_iff ..).1 h
  · simp [hw]
  · simpa [hf, growEngine] using hw
  · simp [hf, rollEngine]

/-- Settles O22: `ADD` replaces the engine and returns its hash; of the window it writes `e.slot` alone. -/
theorem addFrame : Obligations.AddFrame := by
  intro b s t h
  obtain ⟨e, e', he, hadd, rfl⟩ := (execAdd_next_iff b s t).1 h
  refine ⟨e, e', he, rfl, (addEngine_keeps _ _ _ _ b hadd).1, rfl, rfl, rfl, rfl, ?_, ?_⟩
  · intro hw a
    rw [addEngine_win hadd, if_pos hw]
  · intro hw a ha
    rw [addEngine_win hadd, if_neg hw, read_write_of_ne _ b ha]

/-- Settles O23: the window is full where the flag is set or the wrap is pending. -/
theorem addFilledRule : Obligations.AddFilledRule := by
  intro b s t e e' h he ht
  obtain ⟨e₀, e₁, he₀, hadd, rfl⟩ := (execAdd_next_iff b s t).1 h
  obtain rfl : e₀ = e := Option.some.inj (he₀.symm.trans he)
  obtain rfl : e₁ = e' := Option.some.inj ht
  have hiff := (addEngine_filled_iff hadd).trans (or_congr_right (full_eq_true_iff e₀))
  exact ⟨hiff, fun hfilled => hiff.2 (.inr (.inl hfilled))⟩

end Sys2Proof.Machine

/-! ## The rotate -/

namespace Sys2Proof.Machine

/-- Settles O32: seen from the result, bit `j` comes from bit `j - n` modulo 32. -/
theorem rotateMovesBits : Obligations.RotateMovesBits := by
  intro x n i hi
  have hj : (i + n % 32) % 32 < 32 := Nat.mod_lt _ (by decide)
  rw [BitVec.getLsbD_eq_getElem hj, getElem_rotl32 x n _ hj, BitVec.getLsbD_eq_getElem hi]
  congr 1
  omega

/-- A value's low `k` bits, moved up by `m`, are what a shift by `m` leaves of it below `2^(k+m)`. -/
theorem mul_two_pow_mod_two_pow_add (x k m : Nat) :
    x * 2 ^ m % 2 ^ (k + m) = (x % 2 ^ k) <<< m := by
  rw [pow_add, Nat.mul_mod_mul_right, Nat.shiftLeft_eq]

/-- Settles O33: the bits shifted up and the bits that come round below them do not overlap, so that
joining them is adding. -/
theorem rotateArithmetic : Obligations.RotateArithmetic := by
  intro x n
  refine ⟨fun hm => ?_, fun hm => ?_⟩
  · rw [← rotl32_mod, hm, rotl32_zero_amount]
  · obtain ⟨k, hk⟩ : ∃ k, 32 = k + n % 32 := ⟨32 - n % 32, by omega⟩
    have hlow : x.toNat / 2 ^ k < 2 ^ (n % 32) := by
      rw [Nat.div_lt_iff_lt_mul (Nat.two_pow_pos k), ← pow_add, Nat.add_comm, ← hk]
      exact x.isLt
    rw [rotl32, BitVec.toNat_rotateLeft, Nat.shiftLeft_eq, Nat.shiftRight_eq_div_pow,
      show 32 - n % 32 = k by omega, show 2 ^ 32 = 2 ^ (k + n % 32) by rw [← hk],
      mul_two_pow_mod_two_pow_add, Nat.shiftLeft_add_eq_or_of_lt hlow]

end Sys2Proof.Machine

/-! ## The closed form of a stream and what follows from it -/

namespace Sys2Proof.Machine

/-- Every stream whose window fits completes, and the stored hash is the BuzHash of its last bytes
(45_properties.md R130). -/
theorem runStream_hash {s : State} {w : Half} (hw : w.toNat ≤ s.cfg.wcap.val) (bs : List Byte) :
    ∃ t e, runStream w bs s = .next t ∧ t.engine = some e ∧
      e.hash = buzHash s.rom (lastBytes w.toNat bs) := by
  obtain ⟨t, ht, hfed, -⟩ := runStream_fed hw bs
  obtain ⟨e, he, hhash⟩ := hfed.hash
  exact ⟨t, e, ht, he, hhash⟩

/-- Settles O34: every stream feeds all its bytes, and each `ADD` returns the BuzHash of the last of them. -/
theorem streamClosedForm : Obligations.StreamClosedForm := by
  intro w bs s hw
  obtain ⟨t, ht, hfed, hres⟩ := runStream_fed hw bs
  obtain ⟨e, he, hhash⟩ := hfed.hash
  exact ⟨t, e, ht, he, hhash, hres⟩

/-- What was fed before the last bytes does not show in them. -/
theorem lastBytes_append_of_le_length (n : Nat) (as bs : List Byte) (h : n ≤ bs.length) :
    lastBytes n (as ++ bs) = lastBytes n bs := by
  rw [lastBytes, lastBytes, List.length_append, Nat.add_sub_assoc h, List.drop_length_add_append]

/-- Settles O36: both hashes are the BuzHash of the last bytes, which do not reach back to what was fed before. -/
theorem streamWindowOnly : Obligations.StreamWindowOnly := by
  intro w p q bs s hw hlen
  obtain ⟨t, e, ht, he, hhash⟩ := runStream_hash hw (p ++ bs)
  obtain ⟨u, d, hu, hd, hhash'⟩ := runStream_hash hw (q ++ bs)
  rw [lastBytes_append_of_le_length _ _ bs hlen] at hhash hhash'
  exact ⟨t, u, e, d, ht, hu, he, hd, hhash.trans hhash'.symm⟩

/-! ### Rotates that change nothing -/

/-- A word that a rotate by one leaves has all its bits alike. -/
theorem getElem_of_rotl32_one_eq {x : Word} (h : rotl32 x 1 = x) (i : Nat) (hi : i < 32) :
    x[i] = x[0] := by
  induction i with
  | zero => rfl
  | succ i ih =>
    rw [← ih (by omega)]
    have hbit := getElem_rotl32 x 1 (i + 1) hi
    simp only [h] at hbit
    rw [hbit]
    congr 1
    omega

/-- The words that a rotate by one leaves: all zeros and all ones (45_properties.md R134). -/
theorem rotl32_one_eq_self_iff (x : Word) : rotl32 x 1 = x ↔ x = 0 ∨ x = 0xFFFFFFFF := by
  constructor
  · intro h
    have hbits := getElem_of_rotl32_one_eq h
    cases h0 : x[0] with
    | false =>
      refine .inl (BitVec.eq_of_getElem_eq fun i hi => ?_)
      rw [hbits i hi, h0, BitVec.ofNat_eq_ofNat, BitVec.getElem_zero]
    | true =>
      refine .inr (BitVec.eq_of_getElem_eq fun i hi => ?_)
      rw [hbits i hi, h0, show (0xFFFFFFFF : Word) = BitVec.allOnes 32 from rfl, BitVec.getElem_allOnes]
  · rintro (rfl | rfl) <;> rfl

/-- The BuzHash of two bytes. -/
theorem buzHash_pair (rom : Vector Word 256) (a b : Byte) :
    buzHash rom [a, b] = rotl32 (romRead rom a) 1 ^^^ romRead rom b := by
  simp [buzHash]

/-- Two words change sides. -/
theorem xor_eq_xor_iff (p q x y : Word) : p ^^^ y = q ^^^ x ↔ p ^^^ q = x ^^^ y := by
  have hleft : (p ^^^ y) ^^^ (q ^^^ y) = p ^^^ q := by
    rw [show (p ^^^ y) ^^^ (q ^^^ y) = (p ^^^ q) ^^^ (y ^^^ y) by ac_rfl, BitVec.xor_self, BitVec.xor_zero]
  have hright : (q ^^^ x) ^^^ (q ^^^ y) = x ^^^ y := by
    rw [show (q ^^^ x) ^^^ (q ^^^ y) = (x ^^^ y) ^^^ (q ^^^ q) by ac_rfl, BitVec.xor_self, BitVec.xor_zero]
  rw [← hleft, ← hright, BitVec.xor_left_inj]

/-- The BuzHash of two bytes in the two orders (45_properties.md R134). -/
theorem buzHash_pair_swap_iff (rom : Vector Word 256) (a b : Byte) :
    buzHash rom [a, b] = buzHash rom [b, a] ↔
      rotl32 (romRead rom a ^^^ romRead rom b) 1 = romRead rom a ^^^ romRead rom b := by
  rw [buzHash_pair, buzHash_pair, rotl32_xor, xor_eq_xor_iff]

/-- Settles O39: the two orders differ by the exclusive or of the words, rotated against unrotated. -/
theorem orderSensitivityCondition : Obligations.OrderSensitivityCondition := by
  intro a b s hcap
  obtain ⟨t, e, ht, he, hhash⟩ := runStream_hash (w := 2) hcap [a, b]
  obtain ⟨u, d, hu, hd, hhash'⟩ := runStream_hash (w := 2) hcap [b, a]
  refine ⟨t, u, e, d, ht, hu, he, hd, ?_⟩
  rw [hhash, hhash', lastBytes_of_length_le (2 : Half).toNat [a, b] le_rfl,
    lastBytes_of_length_le (2 : Half).toNat [b, a] le_rfl, buzHash_pair_swap_iff, rotl32_one_eq_self_iff]

/-- Bytes put after a string age its hash by as many places as they are. -/
theorem buzHash_append (rom : Vector Word 256) (as bs : List Byte) :
    buzHash rom (as ++ bs) = rotl32 (buzHash rom as) bs.length ^^^ buzHash rom bs := by
  induction as with
  | nil => simp [buzHash]
  | cons c as ih =>
    rw [List.cons_append, buzHash, buzHash, ih, List.length_append, rotl32_xor, rotl32_rotl32,
      BitVec.xor_assoc]

/-- A block whose length is a multiple of 32, twice, hashes to 0 (45_properties.md R141). -/
theorem buzHash_append_self (rom : Vector Word 256) (block : List Byte) (h : block.length % 32 = 0) :
    buzHash rom (block ++ block) = 0 := by
  rw [buzHash_append, ← rotl32_mod, h, rotl32_zero_amount, BitVec.xor_self]
  rfl

/-- Settles O40: the window holds the block twice, and 32 places are a whole turn. -/
theorem periodThirtyTwoCancels : Obligations.PeriodThirtyTwoCancels := by
  intro p block s hcap hlen
  obtain ⟨t, e, ht, he, hhash⟩ := runStream_hash (w := 64) hcap (p ++ block ++ block)
  have hblocks : (block ++ block).length = (64 : Half).toNat := by
    rw [List.length_append, hlen]
    rfl
  rw [List.append_assoc, lastBytes_append_of_length_eq _ _ _ hblocks,
    buzHash_append_self s.rom block (by rw [hlen])] at hhash
  exact ⟨t, e, ht, he, hhash⟩

/-! ### The rolling recurrence -/

/-- The last `n + 1` bytes are the oldest of them and the last `n`. -/
theorem lastBytes_succ {n : Nat} {bs : List Byte} {old : Byte}
    (hold : bs[bs.length - (n + 1)]? = some old) (hlen : n + 1 ≤ bs.length) :
    lastBytes (n + 1) bs = old :: lastBytes n bs := by
  obtain ⟨hlt, rfl⟩ := List.getElem?_eq_some_iff.1 hold
  rw [lastBytes, List.drop_eq_getElem_cons hlt, lastBytes, show bs.length - n = bs.length - (n + 1) + 1 by omega]

theorem length_lastBytes {n : Nat} {bs : List Byte} (h : n ≤ bs.length) : (lastBytes n bs).length = n := by
  rw [lastBytes, List.length_drop, Nat.sub_sub_self h]

/-- The last `n + 1` bytes after one byte more are the last `n` before it, and it. -/
theorem lastBytes_succ_append (n : Nat) (bs : List Byte) (b : Byte) :
    lastBytes (n + 1) (bs ++ [b]) = lastBytes n bs ++ [b] := by
  rw [lastBytes, lastBytes, List.length_append, List.length_singleton, Nat.add_sub_add_right,
    List.drop_append_of_le_length (Nat.sub_le _ _)]

/-- One byte more in a window that holds all bytes fed (45_properties.md R142). -/
theorem buzHash_lastBytes_grow (rom : Vector Word 256) {n : Nat} {bs : List Byte} (b : Byte)
    (h : bs.length < n) :
    buzHash rom (lastBytes n (bs ++ [b])) = rotl32 (buzHash rom (lastBytes n bs)) 1 ^^^ romRead rom b := by
  rw [lastBytes_of_length_le n bs h.le, lastBytes_of_length_le n (bs ++ [b]) (by simpa using h),
    buzHash_append_one]

/-- One byte more in a full window, whose oldest byte leaves (45_properties.md R142). -/
theorem buzHash_lastBytes_roll (rom : Vector Word 256) {n : Nat} {bs : List Byte} {old : Byte} (b : Byte)
    (hn : 1 ≤ n) (hlen : n ≤ bs.length) (hold : bs[bs.length - n]? = some old) :
    buzHash rom (lastBytes n (bs ++ [b])) =
      rotl32 (buzHash rom (lastBytes n bs)) 1 ^^^ rotl32 (romRead rom old) n ^^^ romRead rom b := by
  obtain ⟨m, rfl⟩ := Nat.exists_eq_add_of_le' hn
  rw [lastBytes_succ_append, buzHash_slide rom old, ← lastBytes_succ hold hlen,
    length_lastBytes (Nat.le_of_succ_le hlen)]

/-- Settles O43: the recurrence of the BuzHash of the last bytes, before and after one byte more. -/
theorem rollingRecurrence : Obligations.RollingRecurrence := by
  intro w bs b s hw hpos
  obtain ⟨t, e, ht, he, hhash⟩ := runStream_hash hw bs
  obtain ⟨u, d, hu, hd, hhash'⟩ := runStream_hash hw (bs ++ [b])
  refine ⟨t, u, e, d, ht, hu, he, hd, fun hlt => ?_, fun old hlen hold => ?_⟩
  · rw [hhash', hhash, buzHash_lastBytes_grow s.rom b hlt]
  · rw [hhash', hhash, rotl32_mod, buzHash_lastBytes_roll s.rom b hpos hlen hold]

end Sys2Proof.Machine

/-! ## The stored state of a stream -/

namespace Sys2Proof.Machine

/-- The stored position after `k` bytes in a window of size `w` (45_properties.md R140): after a wrap it is
`w`, not 0, the wrap being deferred to the next `ADD`. -/
def posAfter (w k : Nat) : Nat := if k = 0 then 0 else (k - 1) % w + 1

theorem posAfter_succ (w k : Nat) : posAfter w (k + 1) = k % w + 1 := rfl

/-- The deferred wrap brings byte number `k + 1` to slot `k mod w` (42_add_byte.md R101). -/
theorem wrap_posAfter {w : Nat} (hw : 0 < w) (k : Nat) :
    (if posAfter w k = w then 0 else posAfter w k) = k % w := by
  cases k with
  | zero => simp [posAfter]
  | succ k =>
    rw [posAfter_succ]
    have hlt := Nat.mod_lt k hw
    have hsplit : k + 1 = w * (k / w) + (k % w + 1) := by
      rw [← Nat.add_assoc, Nat.div_add_mod]
    split <;> rename_i hwrap
    · rw [hsplit, hwrap, Nat.mul_add_mod_self_left, Nat.mod_self]
    · rw [hsplit, Nat.mul_add_mod_self_left, Nat.mod_eq_of_lt (show k % w + 1 < w by omega)]

/-- The position stands at the end of the window, or has passed it, from the `w`-th byte on. -/
theorem le_iff_posAfter_eq {w : Nat} (hw : 0 < w) (k : Nat) :
    w ≤ k ↔ w + 1 ≤ k ∨ posAfter w k = w := by
  cases k with
  | zero => simp [posAfter]; omega
  | succ k =>
    rw [posAfter_succ]
    rcases Nat.lt_or_ge k w with hlt | hge
    · rw [Nat.mod_eq_of_lt hlt]
      omega
    · omega

/-- The stored state after the bytes `bs` in a window of size `w`, at least 1 (45_properties.md R140). -/
structure Stored (w : Half) (bs : List Byte) (e : Engine) : Prop where
  wsize : e.wsize = w
  pos : e.pos.toNat = posAfter w.toNat bs.length
  filled : e.filled = true ↔ w.toNat + 1 ≤ bs.length
  slots : ∀ j, j < bs.length → bs.length ≤ j + w.toNat → Memory.read e.win (j % w.toNat) = bs[j]?
  unwritten : ∀ i, min bs.length w.toNat ≤ i → Memory.read e.win i = none

/-- The stored state of a zero window after the bytes `bs` (45_properties.md R140). -/
structure StoredZero (bs : List Byte) (e : Engine) : Prop where
  wsize : e.wsize = 0
  pos : e.pos = 0
  filled : e.filled = true ↔ 1 ≤ bs.length
  win : e.win = []

theorem freshEngine_stored (w : Half) : Stored w [] (freshEngine w) where
  wsize := rfl
  pos := rfl
  filled := by simp
  slots := fun _ hj => absurd hj (Nat.not_lt_zero _)
  unwritten := fun _ _ => rfl

theorem freshEngine_storedZero : StoredZero [] (freshEngine 0) := ⟨rfl, rfl, by simp, rfl⟩

section AfterAdd
variable {cap : Nat} {rom : Vector Word 256} {w : Half} {bs : List Byte} {e e' : Engine} {b : Byte}

theorem StoredZero.after_add (h : StoredZero bs e) (hadd : addEngine cap rom e b = .ok e') :
    StoredZero (bs ++ [b]) e' := by
  obtain rfl : zeroWindow e = e' := Except.ok.inj ((addEngine_of_zero cap rom b h.wsize).symm.trans hadd)
  exact ⟨h.wsize, rfl, by simp, h.win⟩

/-- The slot of the next `ADD` is that of its byte's number less one, modulo the window size. -/
theorem Stored.slot (h : Stored w bs e) (hw : w ≠ 0) : e.slot.toNat = bs.length % w.toNat := by
  simp only [← wrap_posAfter (BitVec.toNat_pos_of_ne_zero hw), ← h.pos, slot_eq, h.wsize, apply_ite BitVec.toNat,
    BitVec.toNat_inj]
  rfl

/-- The next `ADD` evicts from byte number `w + 1` on. -/
theorem Stored.full_iff (h : Stored w bs e) (hw : w ≠ 0) : e.full = true ↔ w.toNat ≤ bs.length := by
  rw [full_eq_true_iff, h.filled, h.wsize, BitVec.toNat_eq, h.pos,
    ← le_iff_posAfter_eq (BitVec.toNat_pos_of_ne_zero hw)]

/-- The position after an `ADD` to a window of at least one slot (42_add_byte.md R104). -/
theorem addEngine_pos (hadd : addEngine cap rom e b = .ok e') (hw : e.wsize ≠ 0) : e'.pos = e.slot + 1 := by
  obtain ⟨hz, -⟩ | ⟨-, -, ⟨-, rfl⟩ | ⟨-, old, -, rfl⟩⟩ := (addEngine_ok_iff ..).1 hadd
  · exact absurd hz hw
  · rfl
  · rfl

/-- `ADD` stores the position, the flag and the byte of its number. -/
theorem Stored.after_add (h : Stored w bs e) (hw : w ≠ 0) (hadd : addEngine cap rom e b = .ok e') :
    Stored w (bs ++ [b]) e' := by
  have hpos := BitVec.toNat_pos_of_ne_zero hw
  have hwe : e.wsize ≠ 0 := h.wsize ▸ hw
  have hwin : e'.win = Memory.write e.win (bs.length % w.toNat) b := by
    rw [addEngine_win hadd, if_neg hwe, h.slot hw]
  have hmod : bs.length % w.toNat < w.toNat := Nat.mod_lt _ hpos
  have hmodle : bs.length % w.toNat ≤ bs.length := Nat.mod_le _ _
  refine ⟨(addEngine_keeps _ _ _ _ b hadd).1.trans h.wsize, ?_, ?_, fun j hj hlast => ?_,
    fun i hi => ?_⟩
  · have hslot := h.slot hw
    have hlt := w.isLt
    rw [addEngine_pos hadd hwe, List.length_append, List.length_singleton, posAfter_succ, ← hslot]
    bv_omega
  · rw [addEngine_filled_iff hadd, or_iff_right hwe, h.full_iff hw, List.length_append,
      List.length_singleton, Nat.add_le_add_iff_right]
  · rw [List.length_append, List.length_singleton] at hj hlast
    rw [hwin]
    rcases Nat.lt_succ_iff_lt_or_eq.1 hj with hlt | rfl
    · have hne : j % w.toNat ≠ bs.length % w.toNat := fun heq => by
        have hle := Nat.ModEq.add_le_of_lt heq hlt
        omega
      rw [read_write_of_ne _ b hne, h.slots j hlt (by omega), List.getElem?_append_left hlt]
    · rw [read_write_same, List.getElem?_concat_length]
  · rw [List.length_append, List.length_singleton] at hi
    rw [hwin, read_write_of_ne _ b (by omega), h.unwritten i (by omega)]

end AfterAdd

section Feeding
variable {P : List Byte → Engine → Prop}

/-- What holds of an engine and the bytes fed to it, and is kept by every `ADD` that completes, holds after
any `ADD`s that complete. -/
theorem runCommands_feedCommands_induction
    (hadd : ∀ {cap rom fed e e' b}, P fed e → addEngine cap rom e b = .ok e' → P (fed ++ [b]) e')
    {bs fed : List Byte} {s t : State} {e : Engine} (hs : s.engine = some e) (hP : P fed e)
    (ht : runCommands (feedCommands bs) s = .next t) : ∃ e', t.engine = some e' ∧ P (fed ++ bs) e' := by
  induction bs generalizing fed s e with
  | nil =>
    obtain rfl : s = t := Host.Outcome.next.inj ht
    exact ⟨e, hs, by simpa using hP⟩
  | cons b bs ih =>
    obtain ⟨u, hexec, hrun⟩ := (runCommands_cons_next_iff ..).1 ht
    obtain ⟨e₀, e₁, he₀, hok, rfl⟩ := (execAdd_next_iff b s u).1 hexec
    obtain rfl : e₀ = e := Option.some.inj (he₀.symm.trans hs)
    obtain ⟨e', he', hP'⟩ := ih rfl (hadd hP hok) hrun
    exact ⟨e', he', by simpa using hP'⟩

/-- The same over a whole stream, from the fresh engine of its `INIT`. -/
theorem runStream_induction {w : Half} {bs : List Byte} {s t : State}
    (hinit : P [] (freshEngine w))
    (hadd : ∀ {cap rom fed e e' b}, P fed e → addEngine cap rom e b = .ok e' → P (fed ++ [b]) e')
    (ht : runStream w bs s = .next t) : ∃ e, t.engine = some e ∧ P bs e := by
  obtain ⟨u, hexec, hrun⟩ := (runCommands_cons_next_iff ..).1 ht
  obtain ⟨-, rfl⟩ := (execInit_next_iff w s u).1 hexec
  exact runCommands_feedCommands_induction hadd rfl hinit hrun

end Feeding

/-- Settles O35: the fresh engine stores what R140 says of no bytes, and every `ADD` what it says of one byte
more. -/
theorem streamStoredState : Obligations.StreamStoredState := by
  intro w bs s hcap
  obtain ⟨t, ht, -, -⟩ := runStream_fed hcap bs
  by_cases hw : w = 0
  · subst hw
    obtain ⟨e, he, hstored⟩ := runStream_induction freshEngine_storedZero StoredZero.after_add ht
    exact ⟨t, e, ht, he, hstored.wsize, fun _ => ⟨hstored.pos, hstored.filled, hstored.win⟩,
      fun h => absurd rfl h⟩
  · obtain ⟨e, he, hstored⟩ :=
      runStream_induction (freshEngine_stored w) (fun h hadd => h.after_add hw hadd) ht
    refine ⟨t, e, ht, he, hstored.wsize, fun h => absurd h hw, fun _ => ⟨hstored.pos, hstored.filled, ?_,
      hstored.unwritten⟩⟩
    rintro i j - hj rfl hlast
    exact hstored.slots j hj hlast

end Sys2Proof.Machine

/-! ## Instances side by side -/

namespace Sys2Proof.Machine

section Advance
variable {rom : Vector Word 256}

/-- One step of a member is one step of the state it stands for, or of the stop it stopped at. -/
theorem advance_memberAfter (o : Host.Outcome State Fault Refusal)
    (hrom : ∀ t, o = .next t → t.rom = rom) :
    Member.advance rom (memberAfter o) = memberAfter (andThen o step) := by
  cases o with
  | next t =>
    obtain rfl := hrom t rfl
    rfl
  | fault f => rfl
  | refused r => rfl

/-- Any number of steps of a member is a run of its own (60_exceptions.md R160). -/
theorem advance_iterate_memberAfter (n : Nat) (o : Host.Outcome State Fault Refusal)
    (hrom : ∀ t, o = .next t → t.rom = rom) :
    (Member.advance rom)^[n] (memberAfter o) = memberAfter (andThen o (coreRun n)) := by
  induction n generalizing o with
  | zero => exact congrArg memberAfter (andThen_next_right o).symm
  | succ n ih =>
    have hstep : ∀ t, andThen o step = .next t → t.rom = rom := fun t ht => by
      cases o with
      | next u => exact (step_rom_cfg u t ht).1.trans (hrom u rfl)
      | fault f => cases ht
      | refused r => cases ht
    rw [Function.iterate_succ_apply, advance_memberAfter o hrom, ih _ hstep, andThen_assoc]
    simp only [← coreRun_succ]

/-- A running member comes to what its own run alone gives it. -/
theorem advance_iterate_running (n : Nat) (o : Own) :
    (Member.advance rom)^[n] (.running o) = memberAfter (coreRun n (o.withRom rom)) :=
  advance_iterate_memberAfter n (.next (o.withRom rom)) fun _ ht => by cases ht; rfl

end Advance

/-- No finite run writes the table (20_memory.md R36). -/
theorem coreRun_rom (n : Nat) (s t : State) (h : coreRun n s = .next t) : t.rom = s.rom := by
  induction n generalizing s with
  | zero => cases h; rfl
  | succ n ih =>
    rw [coreRun_succ] at h
    cases hs : step s with
    | next u =>
      rw [hs, andThen_next] at h
      rw [ih u h, (step_rom_cfg s u hs).1]
    | fault f => rw [hs] at h; cases h
    | refused r => rw [hs] at h; cases h

section SystemRun
variable (ks : List Nat) (sys : System)

theorem system_run_rom : (System.run ks sys).rom = sys.rom := by
  induction ks generalizing sys with
  | nil => rfl
  | cons k ks ih => exact (ih _).trans (stepAt_rom k sys)

theorem system_run_length : (System.run ks sys).members.length = sys.members.length := by
  induction ks generalizing sys with
  | nil => rfl
  | cons k ks ih => exact (ih _).trans (stepAt_length k sys)

/-- Under a schedule each member makes the steps the schedule gives it, and no more. -/
theorem system_run_member (j : Nat) :
    (System.run ks sys).members[j]? = sys.members[j]?.map (Member.advance sys.rom)^[ks.count j] := by
  induction ks generalizing sys with
  | nil => simp [System.run]
  | cons k ks ih =>
    rw [System.run, ih, stepAt_member, stepAt_rom, Option.map_map]
    congr 1
    funext m
    by_cases hk : k = j
    · subst hk
      simp
    · simp [hk]

/-- A member that no step changes, a stopped one, stays as it is. -/
theorem system_run_stopped {j : Nat} {m : Member} (hj : sys.members[j]? = some m)
    (hstop : Member.advance sys.rom m = m) : (System.run ks sys).members[j]? = some m := by
  rw [system_run_member, hj, Option.map_some, Function.iterate_fixed hstop]

/-- A running member is where its own share of the steps, alone, would have it. -/
theorem system_run_running {j : Nat} {o : Own} (hj : sys.members[j]? = some (.running o)) :
    (System.run ks sys).members[j]? =
      some (memberAfter (coreRun (ks.count j) (o.withRom sys.rom))) := by
  rw [system_run_member, hj, Option.map_some, advance_iterate_running]

end SystemRun

/-- Settles O44: the schedule advances each member by its own share, and a share is a run of its own. -/
theorem instancesIndependent : Obligations.InstancesIndependent := by
  intro ks sys
  refine ⟨system_run_rom ks sys, system_run_length ks sys, fun j => ⟨fun o hj => ?_, fun f hj => ?_,
    fun r hj => ?_⟩⟩
  · have hrun := system_run_running ks sys hj
    refine ⟨fun t ht => ?_, fun f hf => ?_, fun r hr => ?_⟩
    · have hrom : t.rom = sys.rom := coreRun_rom _ _ t ht
      rw [show coreRun _ _ = .next t from ht] at hrun
      exact ⟨hrun, hrom ▸ own_withRom t⟩
    · rwa [show coreRun _ _ = .fault f from hf] at hrun
    · rwa [show coreRun _ _ = .refused r from hr] at hrun
  · exact system_run_stopped ks sys hj rfl
  · exact system_run_stopped ks sys hj rfl

/-- The system of instances that run in the given states, with one table. -/
def System.ofStates (rom : Vector Word 256) (ss : List State) : System :=
  { rom := rom, members := ss.map fun s => .running s.own }

@[simp] theorem ofStates_rom (rom : Vector Word 256) (ss : List State) :
    (System.ofStates rom ss).rom = rom := rfl

@[simp] theorem ofStates_length (rom : Vector Word 256) (ss : List State) :
    (System.ofStates rom ss).members.length = ss.length :=
  List.length_map _

theorem ofStates_member {rom : Vector Word 256} {ss : List State} {j : Nat} {s : State}
    (h : ss[j]? = some s) : (System.ofStates rom ss).members[j]? = some (.running s.own) := by
  simp [System.ofStates, h]

theorem system_eq_of_members {sys sys' : System} (hrom : sys.rom = sys'.rom)
    (hmembers : sys.members = sys'.members) : sys = sys' := by
  cases sys
  cases hrom
  cases hmembers
  rfl

/-- Settles O45: the members of the two systems are equal one by one, each by its own run. -/
theorem systemCompletesSchedule : Obligations.SystemCompletesSchedule := by
  intro ks rom start finish hlen hrom hrun
  refine system_eq_of_members (sys := System.run ks (System.ofStates rom start))
    (sys' := System.ofStates rom finish) (system_run_rom ks _) (List.ext_getElem? fun j => ?_)
  by_cases hj : j < start.length
  · have hs := List.getElem?_eq_getElem hj
    have ht := List.getElem?_eq_getElem (hlen ▸ hj : j < finish.length)
    have hown : start[j].own.withRom rom = start[j] := by
      rw [← hrom _ (List.getElem_mem hj), own_withRom]
    have halone : coreRun (ks.count j) start[j] = .next finish[j] := hrun j _ _ hs ht
    rw [system_run_running ks _ (ofStates_member hs), ofStates_member ht, ofStates_rom, hown, halone]
    rfl
  · rw [List.getElem?_eq_none (by simpa [system_run_length] using hj),
      List.getElem?_eq_none (by simpa [← hlen] using hj)]

end Sys2Proof.Machine
